-- ==== Sys2Proof/Word.lean ====
section
/-! DEFINITION. The words of the block: bytes, the 16-bit operand, the 32-bit request word, byte strings
(spec/00_scope.md R9, R10). -/

namespace Sys2Proof

/-- A byte, bits numbered from 0 (R9). -/
abbrev Byte := BitVec 8

/-- The 16-bit operand field of a request word, and the width of the clock divisor (`DIV_W`, R7). -/
abbrev Half := BitVec 16

/-- A request word (`REQ_W` = 32, R7). -/
abbrev Word := BitVec 32

/-- A byte string: a finite list of bytes (R10). -/
abbrev Bytes := List Byte

/-- `rep(k, s)`: s concatenated with itself k times, `rep(0, s) = []` (R10). -/
def rep : Nat → Bytes → Bytes
  | 0, _ => []
  | k + 1, s => s ++ rep k s

end Sys2Proof
end

