-- ==== Sys2Proof/Syntax.lean ====
section
/-! DEFINITION. The requests of the block, one constructor per row of spec/opcode_table.json
(spec/30_encoding.md R62, R63). The operand widths are in the types. -/

namespace Sys2Proof

/-- A legal request with its operand (R62). -/
inductive Instr where
  /-- CONFIGURE d: latch the clock divisor (R103). -/
  | configure (d : Half)
  /-- START: append the start-condition sequence (R93). -/
  | start
  /-- STOP: append the stop-condition sequence (R95). -/
  | stop
  /-- BYTE_OUT b: append the byte-out sequence of b (R96). -/
  | byteOut (b : Byte)
  /-- ACK_RELEASE: append the bus-release bytes (R98). -/
  | ackRelease
  /-- READ n: append the read sequence (R99). -/
  | read (n : Half)
  /-- FLUSH: send the buffer as one unit (R105). -/
  | flush
  /-- RECV_ACK: receive and decode the handshake byte (R106). -/
  | recvAck
  /-- RECV n: receive the owed read data (R108). -/
  | recv (n : Half)
deriving DecidableEq, Repr

end Sys2Proof
end

