-- ==== Sys2Proof/WellFormed.lean ====
section
/-! DEFINITION. Which 32-bit words spell a request: the list of illegal encodings of spec/30_encoding.md R64,
written from R64 and not from the decoder of R65. A term of `Instr` needs no check of its own, because its
operand widths are in its type (R63); `LitsWF`, the check on the parameter LITS, is in Machine/Lits.lean. -/

namespace Sys2Proof

/-- `w[31:28]`, the request opcode (R61). -/
def opField (w : Word) : BitVec 4 := w.extractLsb' 28 4

/-- `w[27:16]`, reserved (R61). -/
def rsvField (w : Word) : BitVec 12 := w.extractLsb' 16 12

/-- `w[15:0]`, the operand (R61). -/
def argField (w : Word) : Half := w.extractLsb' 0 16

/-- R64, first point: op 0x0 and 0xA to 0xF are reserved. -/
def reservedOp (w : Word) : Bool := opField w == 0x0#4 || 0xA#4 ≤ opField w

/-- R64, second point: rsv is not 0. -/
def reservedBitsSet (w : Word) : Bool := rsvField w != 0#12

/-- The opcodes of the operand-less requests START, STOP, ACK_RELEASE, FLUSH and RECV_ACK (R63). -/
def operandless : List (BitVec 4) := [0x2#4, 0x3#4, 0x5#4, 0x7#4, 0x8#4]

/-- R64, third point: an operand-less request with arg not 0. -/
def strayOperand (w : Word) : Bool := operandless.contains (opField w) && argField w != 0#16

/-- R64, fourth point: a BYTE_OUT word whose arg[15:8] is not 0. -/
def wideByte (w : Word) : Bool := opField w == 0x4#4 && (argField w).extractLsb' 8 8 != 0#8

/-- A word is legal when none of R64's four points holds of it. -/
def legalWord (w : Word) : Bool :=
  !(reservedOp w || reservedBitsSet w || strayOperand w || wideByte w)

end Sys2Proof
end

