-- ==== Sys2Proof/Decode.lean ====
section
/-! DEFINITION. The decoder of request words (spec/30_encoding.md R65), total on every 32-bit word, the encoder
written from the same opcode map (R62), and the rows of spec/opcode_table.json. -/

namespace Sys2Proof

/-- An operand-less request: legal only with arg = 0 (R65). -/
def noOperand (arg : Half) (i : Instr) : Option Instr := if arg = 0#16 then some i else none

/-- `Decode(w)` of R65; `none` is R65's `Illegal`. -/
def decode (w : Word) : Option Instr :=
  let arg := argField w
  if rsvField w ≠ 0#12 then none
  else match (opField w).toNat with
    | 0x1 => some (.configure arg)
    | 0x2 => noOperand arg .start
    | 0x3 => noOperand arg .stop
    | 0x4 => if arg.extractLsb' 8 8 = 0#8 then some (.byteOut (arg.extractLsb' 0 8)) else none
    | 0x5 => noOperand arg .ackRelease
    | 0x6 => some (.read arg)
    | 0x7 => noOperand arg .flush
    | 0x8 => noOperand arg .recvAck
    | 0x9 => some (.recv arg)
    | _ => none

/-- The request's opcode (R62). -/
def opcodeOf : Instr → BitVec 4
  | .configure _ => 0x1#4
  | .start => 0x2#4
  | .stop => 0x3#4
  | .byteOut _ => 0x4#4
  | .ackRelease => 0x5#4
  | .read _ => 0x6#4
  | .flush => 0x7#4
  | .recvAck => 0x8#4
  | .recv _ => 0x9#4

/-- The request's operand field (R62, R63). -/
def operandOf : Instr → Half
  | .configure d => d
  | .start => 0#16
  | .stop => 0#16
  | .byteOut b => 0#8 ++ b
  | .ackRelease => 0#16
  | .read n => n
  | .flush => 0#16
  | .recvAck => 0#16
  | .recv n => n

/-- The word of a request: op, then twelve zero bits, then arg (R61). -/
def encode (i : Instr) : Word := opcodeOf i ++ 0#12 ++ operandOf i

/-- What the decoder reads from a request of the opcode table whose bits are w: the low nbits of w, with zeros above
them, on the 32-bit request port (R61: one length, no prefix). Bits above bit 31 spell no request. -/
def decodeTableWord (nbits w : Nat) : Option Instr :=
  let v := w % 2 ^ nbits
  if v < 2 ^ 32 then decode (BitVec.ofNat 32 v) else none

/-- A row of spec/opcode_table.json: `w` is the row's when `w & mask = pattern`. -/
structure OpcodeRow where
  mnemonic : String
  pattern : Word
  mask : Word
deriving DecidableEq, Repr

/-- The rows of spec/opcode_table.json. -/
def opcodeTable : List OpcodeRow :=
  [⟨"CONFIGURE", 0x10000000#32, 0xFFFF0000#32⟩,
   ⟨"START", 0x20000000#32, 0xFFFFFFFF#32⟩,
   ⟨"STOP", 0x30000000#32, 0xFFFFFFFF#32⟩,
   ⟨"BYTE_OUT", 0x40000000#32, 0xFFFFFF00#32⟩,
   ⟨"ACK_RELEASE", 0x50000000#32, 0xFFFFFFFF#32⟩,
   ⟨"READ", 0x60000000#32, 0xFFFF0000#32⟩,
   ⟨"FLUSH", 0x70000000#32, 0xFFFFFFFF#32⟩,
   ⟨"RECV_ACK", 0x80000000#32, 0xFFFFFFFF#32⟩,
   ⟨"RECV", 0x90000000#32, 0xFFFF0000#32⟩]

/-- Whether the word spells the row's request. -/
def OpcodeRow.matchesWord (r : OpcodeRow) (w : Word) : Bool := w &&& r.mask == r.pattern

end Sys2Proof
end

