-- ==== Sys2Proof/Config.lean ====
section
/-! DEFINITION. What is fixed for this hardware (spec/00_scope.md R7, R8) and the free values the spec leaves
to the environment (spec/20_memory.md R53, spec/93_implementation_defined.md U14, U15, U18). Of R7's table, DIV_W and
REQ_W are the types Half and Word, READ_GROUPS is the shape of `rdSeq`, LOOP_EVAL that of `loopCountFormula`, and LITS,
GPIO_VAL and GPIO_DIR are the argument `Lits`. -/

namespace Sys2Proof

/-- A transport's answer to a flush: `TxOk(k)` or `TxErr` (R53). -/
inductive TxAnswer where
  | ok (k : Nat)
  | err
deriving DecidableEq, Repr, Inhabited

/-- A transport's answer to a receive: `RxOk(bs)` or `RxErr` (R53). -/
inductive RxAnswer where
  | ok (bs : Bytes)
  | err
deriving DecidableEq, Repr, Inhabited

namespace Config

/-- `CAP`: the command buffer's capacity in bytes (R7). -/
abbrev cap : Nat := 1024

/-- `BASE_KHZ`: the base clock of the bus-clock formula (R7). -/
def baseKhz : Nat := 60000

/-- `LOOP_SCALE`: the numerator factor of the loop count (R7). -/
def loopScale : Nat := 10

/-- `LOOP_REF_KHZ`: the reference frequency of the loop count (R7). -/
def loopRefKhz : Nat := 200

/-- `START_REPEAT`: the repetition count in the start sequence (R7). -/
def startRepeat : Nat := 4

/-- `STOP_REPEAT`: the repetition count in the stop sequence (R7). -/
def stopRepeat : Nat := 4

/-- `READ_N_ADMITTED`: the read lengths the block gives a meaning (R7, D6). -/
def readNAdmitted : List Nat := [1]

/-- `ACK_BIT`: the bit of the handshake byte that carries the acknowledgement (R7). -/
def ackBit : Nat := 0

/-- FREE VALUE. The transport's answer to its n-th call when that call is a flush and State lists no coming
answer (R53; log 4). No body: nothing can be proved of the value. -/
opaque freeTxAnswer : Nat → TxAnswer

/-- FREE VALUE. The transport's answer to its n-th call when that call is a receive and State lists no coming
answer (R53; log 4). -/
opaque freeRxAnswer : Nat → RxAnswer

/-- FREE VALUE. What call number n reads at a buffer address whose cell holds no value
(`any value`, U18; log 8). -/
opaque freeCell : Nat → Nat → Byte

end Config

end Sys2Proof
end

