-- ==== Sys2Proof/Machine/Mpsse.lean ====
section
/-! DEFINITION. The MPSSE commands of the out stream (spec/30_encoding.md R72 to R78), their bytes, their lengths and
the response bytes each produces, and the reading of a line state under the pin map of R74 (R83).
PRESUMED: every byte value here is the spec's own general knowledge (93_implementation_defined.md G1, G2, G3; log 10).
No request reads this file except through the check LitsWF and the reference instantiation REF. -/

namespace Sys2Proof.Machine

/-- An MPSSE command of the kinds the encoder emits (R72). -/
inductive Cmd where
  /-- `SET(v, d)`: the line-state command (R73). -/
  | set (v d : Byte)
  /-- Clock the data bytes out on the falling edge (R75). -/
  | bytesOut (data : Bytes)
  /-- Clock `len + 1` bits in (R76). -/
  | bitsIn (len : Byte)
  /-- Clock `lenH·256 + lenL + 1` bytes in (R77). -/
  | bytesIn (lenL lenH : Byte)
  /-- Send immediate (R77). -/
  | sendImmediate
deriving DecidableEq, Repr

/-- `SET(v, d) = [0x80, v, d]` (R73). -/
def setCmd (v d : Byte) : Bytes := [0x80#8, v, d]

/-- The opcode byte and the two length bytes, low byte first, of a byte-out command for n data bytes (R75). -/
def bytesOutHead (n : Nat) : Bytes :=
  [0x11#8, BitVec.ofNat 8 ((n - 1) % 256), BitVec.ofNat 8 ((n - 1) / 256)]

/-- The bytes of a command (R73, R75, R76, R77). -/
def cmdBytes : Cmd → Bytes
  | .set v d => setCmd v d
  | .bytesOut data => bytesOutHead data.length ++ data
  | .bitsIn len => [0x22#8, len]
  | .bytesIn lenL lenH => [0x24#8, lenL, lenH]
  | .sendImmediate => [0x87#8]

/-- The 16-bit length field, low byte first, plus one (R75, R77). -/
def lengthField (lenL lenH : Byte) : Nat := lenH.toNat * 256 + lenL.toNat + 1

/-- The number of response bytes a command produces (R73, R75, R76, R77). -/
def cmdResponses : Cmd → Nat
  | .set _ _ => 0
  | .bytesOut _ => 0
  | .bitsIn _ => 1
  | .bytesIn lenL lenH => lengthField lenL lenH
  | .sendImmediate => 0

/-- The response bytes of a command list. -/
def responses (cs : List Cmd) : Nat := (cs.map cmdResponses).sum

/-- The first command of a byte string and the bytes after it; any other first byte is not a command the encoder
emits (R78). -/
def nextCmd : Bytes → Option (Cmd × Bytes)
  | [] => none
  | op :: rest =>
    match op.toNat, rest with
    | 0x80, v :: d :: r => some (.set v d, r)
    | 0x11, l :: h :: r =>
      if lengthField l h ≤ r.length then some (.bytesOut (r.take (lengthField l h)), r.drop (lengthField l h)) else none
    | 0x22, len :: r => some (.bitsIn len, r)
    | 0x24, l :: h :: r => some (.bytesIn l h, r)
    | 0x87, r => some (.sendImmediate, r)
    | _, _ => none

/-- Reads at most `fuel` commands; `none` where some byte starts no command (R78). -/
def readCmds : Nat → Bytes → Option (List Cmd)
  | _, [] => some []
  | 0, _ :: _ => none
  | fuel + 1, b :: bs =>
    match nextCmd (b :: bs) with
    | none => none
    | some (c, r) =>
      match readCmds fuel r with
      | none => none
      | some cs => some (c :: cs)

/-- The commands of a byte string (R78); every command has at least one byte, so its length is fuel enough. -/
def cmdsOf (bs : Bytes) : Option (List Cmd) := readCmds bs.length bs

/-- Whether a byte is the first byte of a command (R78's list). -/
def isOpcode (b : Byte) : Bool := [0x80, 0x11, 0x22, 0x24, 0x87].contains b.toNat

/-- The response bytes of a byte string, read by at most `fuel` steps. A byte that starts no command of R78 is read as one
byte that produces no response, as 90_conflicts.md C4's literal-byte reading of a clock-toggle byte has it (DEDUCED,
log 12); `none` where a command of R78 lacks its last bytes. -/
def countResponses : Nat → Bytes → Option Nat
  | _, [] => some 0
  | 0, _ :: _ => none
  | fuel + 1, b :: bs =>
    match nextCmd (b :: bs) with
    | some (c, r) => (countResponses fuel r).map fun n => cmdResponses c + n
    | none => if isOpcode b then none else countResponses fuel bs

/-- The response bytes a byte string produces (R73 to R78). -/
def responseCount (bs : Bytes) : Option Nat := countResponses bs.length bs

/-- Whether a command is a line-state command. -/
def isSet : Cmd → Bool
  | .set _ _ => true
  | .bytesOut _ => false
  | .bitsIn _ => false
  | .bytesIn _ _ => false
  | .sendImmediate => false

/-- The level the adapter drives on low-byte pin i under `SET(v, d)`: `none` where the pin is an input (R73). -/
def drivenLevel (v d : Byte) (i : Nat) : Option Bool := if d.getLsbD i then some (v.getLsbD i) else none

/-- SCL is bit 0 of the low byte in REF's wiring (R74). -/
def sclLevel (v d : Byte) : Option Bool := drivenLevel v d 0

/-- The driven SDA is bit 1 of the low byte in REF's wiring (R74). -/
def sdaLevel (v d : Byte) : Option Bool := drivenLevel v d 1

/-- The SCL and SDA levels a command sets; `none` for a command that is no line-state command. -/
def cmdLevels : Cmd → Option (Option Bool × Option Bool)
  | .set v d => some (sclLevel v d, sdaLevel v d)
  | .bytesOut _ => none
  | .bitsIn _ => none
  | .bytesIn _ _ => none
  | .sendImmediate => none

/-- The SCL and SDA levels a byte string walks through, command by command (R83). -/
def levelsOf (bs : Bytes) : Option (List (Option (Option Bool × Option Bool))) :=
  (cmdsOf bs).map fun cs => cs.map cmdLevels

/-! ### What the reader does, said once -/

theorem nextCmd_append {bs r : Bytes} {c : Cmd} (h : nextCmd bs = some (c, r)) (t : Bytes) :
    nextCmd (bs ++ t) = some (c, r ++ t) := by
  cases bs with
  | nil => simp [nextCmd] at h
  | cons op rest =>
    simp only [nextCmd, List.cons_append] at h ⊢
    split at h <;> simp_all
    · obtain ⟨hl, rfl, rfl⟩ := h
      refine ⟨by omega, ?_, ?_⟩
      · rw [List.take_append_of_le_length hl]
      · rw [List.drop_append_of_le_length hl]

theorem nextCmd_shorter {bs r : Bytes} {c : Cmd} (h : nextCmd bs = some (c, r)) : r.length < bs.length := by
  cases bs with
  | nil => simp [nextCmd] at h
  | cons op rest =>
    simp only [nextCmd] at h
    split at h <;> simp_all
    all_goals first | omega | (obtain ⟨hl, rfl, rfl⟩ := h; simp; omega)

theorem nextCmd_opcode {b : Byte} {bs r : Bytes} {c : Cmd} (h : nextCmd (b :: bs) = some (c, r)) : isOpcode b = true := by
  simp only [nextCmd] at h
  split at h <;> simp_all [isOpcode]

theorem countResponses_enough : ∀ (n k : Nat) (bs : Bytes), bs.length ≤ n → bs.length ≤ k →
    countResponses n bs = countResponses k bs := by
  intro n
  induction n with
  | zero => intro k bs hn hk; obtain rfl := List.length_eq_zero_iff.mp (Nat.le_zero.mp hn); cases k <;> rfl
  | succ n ih =>
    intro k bs hn hk
    cases bs with
    | nil => cases k <;> rfl
    | cons b bs =>
      cases k with
      | zero => simp at hk
      | succ k =>
        simp only [countResponses]
        cases h : nextCmd (b :: bs) with
        | none => simp only [List.length_cons] at hn hk; rw [ih k bs (by omega) (by omega)]
        | some p =>
          have := nextCmd_shorter (c := p.1) (r := p.2) h
          simp only [List.length_cons] at hn hk this
          simp only []
          rw [ih k p.2 (by omega) (by omega)]

@[simp] theorem responseCount_nil : responseCount [] = some 0 := rfl

theorem responseCount_of_cmd {bs r : Bytes} {c : Cmd} (h : nextCmd bs = some (c, r)) :
    responseCount bs = (responseCount r).map fun n => cmdResponses c + n := by
  cases bs with
  | nil => simp [nextCmd] at h
  | cons b bs =>
    have := nextCmd_shorter h
    simp only [List.length_cons] at this
    simp only [responseCount, List.length_cons, countResponses, h]
    rw [countResponses_enough bs.length r.length r (by omega) (by omega)]

theorem responseCount_of_noCmd {b : Byte} {bs : Bytes} (h : nextCmd (b :: bs) = none) :
    responseCount (b :: bs) = if isOpcode b then none else responseCount bs := by
  simp only [responseCount, List.length_cons, countResponses, h]

theorem responseCount_append_fuel {n : Nat} : ∀ (k m : Nat) (a b : Bytes), a.length ≤ k → responseCount a = some m →
    responseCount b = some n → responseCount (a ++ b) = some (m + n) := by
  intro k
  induction k with
  | zero =>
    intro m a b hk ha hb
    obtain rfl := List.length_eq_zero_iff.mp (Nat.le_zero.mp hk)
    obtain rfl : 0 = m := by simpa using ha
    simpa using hb
  | succ k ih =>
    intro m a b hk ha hb
    cases a with
    | nil => obtain rfl : 0 = m := by simpa using ha
             simpa using hb
    | cons x a =>
      cases h : nextCmd (x :: a) with
      | none =>
        rw [responseCount_of_noCmd h] at ha
        split at ha
        · cases ha
        · next ho =>
          have h' : nextCmd (x :: (a ++ b)) = none := by
            cases h2 : nextCmd (x :: (a ++ b)) with
            | none => rfl
            | some p => exact absurd (nextCmd_opcode h2) ho
          rw [List.cons_append, responseCount_of_noCmd h', if_neg ho]
          exact ih m a b (by simpa using hk) ha hb
      | some p =>
        obtain ⟨c, r⟩ := p
        rw [responseCount_of_cmd h] at ha
        obtain ⟨j, hj, rfl⟩ := Option.map_eq_some_iff.mp ha
        rw [responseCount_of_cmd (nextCmd_append h b),
          ih j r b (by have := nextCmd_shorter h; omega) hj hb]
        simp [Nat.add_assoc]

/-- The responses of two strings, the first of which ends with a whole command, add up. -/
theorem responseCount_append {m n : Nat} {a b : Bytes} (ha : responseCount a = some m) (hb : responseCount b = some n) :
    responseCount (a ++ b) = some (m + n) := responseCount_append_fuel a.length m a b (Nat.le_refl _) ha hb

theorem responseCount_rep {bs : Bytes} (h : responseCount bs = some 0) (k : Nat) : responseCount (rep k bs) = some 0 := by
  induction k with
  | zero => rfl
  | succ k ih => exact responseCount_append h ih

/-- Where the commands of a string can all be read, its response count is theirs. -/
theorem responseCount_of_readCmds : ∀ (k : Nat) (bs : Bytes) (cs : List Cmd), readCmds k bs = some cs →
    responseCount bs = some (responses cs) := by
  intro k
  induction k with
  | zero => intro bs cs h; cases bs with
    | nil => cases h; rfl
    | cons b bs => cases h
  | succ k ih =>
    intro bs cs h
    cases bs with
    | nil => cases h; rfl
    | cons b bs =>
      simp only [readCmds] at h
      split at h
      · cases h
      · next c r hc =>
        split at h
        · cases h
        · next cs' hr =>
          cases h
          rw [responseCount_of_cmd hc, ih r cs' hr]
          simp [responses]

theorem responseCount_of_cmdsOf {bs : Bytes} {cs : List Cmd} (h : cmdsOf bs = some cs) :
    responseCount bs = some (responses cs) := responseCount_of_readCmds bs.length bs cs h

/-- Line-state commands produce no response (R73). -/
theorem responses_of_sets {cs : List Cmd} (h : cs.all isSet = true) : responses cs = 0 := by
  induction cs with
  | nil => rfl
  | cons c cs ih =>
    simp only [List.all_cons, Bool.and_eq_true] at h
    cases c <;> simp_all [isSet, responses, cmdResponses]

end Sys2Proof.Machine
end

