-- ==== Sys2Proof/Machine/Lits.lean ====
section
/-! DEFINITION. The parameter LITS (spec/30_encoding.md R79), the check LitsWF a model admits it by (R80), and the
reference instantiation REF (R81, R82). -/

namespace Sys2Proof.Machine

/-- The byte strings the encoder emits, eleven fields (R79). -/
structure Lits where
  startSeq : Bytes
  stopSeq : Bytes
  boHead : Bytes
  boTail : Bytes
  ackReleaseSeq : Bytes
  rdHead : Bytes
  rdG0 : Bytes
  rdG1 : Bytes
  rdG2 : Bytes
  gpioVal : Byte
  gpioDir : Byte
deriving DecidableEq, Repr

/-- `RdSeq(L)`: the read head, then the three loop groups in the order g0, g1, g2 (spec/40_bus_primitives.md R92). -/
def rdSeq (l : Lits) (L : Nat) : Bytes := l.rdHead ++ rep L l.rdG0 ++ rep L l.rdG1 ++ rep L l.rdG2

/-- The length of RdSeq(L) (spec/40_bus_primitives.md R92). -/
def rdLength (l : Lits) (L : Nat) : Nat := l.rdHead.length + L * (l.rdG0.length + l.rdG1.length + l.rdG2.length)

/-- BYTE_OUT's string: `bo_head ++ [b] ++ bo_tail` (spec/40_bus_primitives.md R96). -/
def byteOutSeq (l : Lits) (b : Byte) : Bytes := l.boHead ++ [b] ++ l.boTail

/-- The commands are line-state commands only (R80 point 2). -/
def lineStatesOnly (bs : Bytes) : Bool :=
  match cmdsOf bs with
  | none => false
  | some cs => cs.all isSet

/-- The commands of a list that stand in it more than once, in their order. -/
def repeatedIn (cs : List Cmd) : List Cmd := cs.filter fun c => cs.count c != 1

/-- The commands of a list that stand in it once. -/
def onceIn (cs : List Cmd) : List Cmd := cs.filter fun c => cs.count c == 1

/-- The list is one piece, written n times. -/
def isPower (n : Nat) (cs : List Cmd) : Bool := (List.replicate n (cs.take (cs.length / n))).flatten == cs

/-- The list is not one piece written more than k times. -/
def isPowerAtMost (k : Nat) (cs : List Cmd) : Bool :=
  (List.range (cs.length + 1)).all fun m => !isPower m cs || decide (m ≤ k)

/-- Some piece that is not empty, written n times, starts the list. -/
def startsWithRun {α : Type} [DecidableEq α] (n : Nat) (cs : List α) : Bool :=
  (List.range cs.length).any fun m => (List.replicate n (cs.take (m + 1))).flatten.isPrefixOf cs

/-- Some piece that is not empty stands in the list n times in a row. -/
def hasRun {α : Type} [DecidableEq α] (n : Nat) : List α → Bool
  | [] => false
  | c :: cs => startsWithRun n (c :: cs) || hasRun n cs

/-- After blocks of the pieces `done`, the list is blocks of exactly k cycles each: one piece written k times, and then
another. A piece is itself no repetition and holds no k in a row; the blocks do not make a piece twice in a row, nor some of
them k + 1 times. By at most `fuel` blocks. -/
def isBlocks (k : Nat) : Nat → List (List Cmd) → List Cmd → Bool
  | _, done, [] => decide (done.IsChain (· ≠ ·)) && !hasRun (k + 1) done
  | 0, _, _ :: _ => false
  | fuel + 1, done, c :: cs => (List.range (cs.length + 1)).any fun m =>
      let w := (c :: cs).take (m + 1)
      isPowerAtMost 1 w && !hasRun k w && (List.replicate k w).flatten.isPrefixOf (c :: cs)
        && isBlocks k fuel (done ++ [w]) ((c :: cs).drop (List.replicate k w).flatten.length)

/-- The list is exactly k repetitions: what stands in it more than once is k copies of some commands, wherever they stand,
and nothing in it is repeated more than k times in a row, unless such a row is held within one cycle of k, or only arises
where blocks of exactly k cycles each meet. What stands once is no repetition. DEDUCED, log 11. -/
def repeatsExactly (k : Nat) (cs : List Cmd) : Bool :=
  repeatedIn cs != [] && (repeatedIn cs).all (fun c => decide (k ∣ cs.count c))
    && (!hasRun (k + 1) cs || (isPower k (repeatedIn cs) && isPowerAtMost k (repeatedIn cs))
      || isBlocks k cs.length [] (repeatedIn cs))

/-- The list `body` is exactly k repetitions and `settle` is the way the lines then settle, which is no repetition: it visits
no state twice and none that stands once in the body, and it does not go through all the repeated commands again; where it
visits one of them, nothing stands k + 1 times in a row. DEDUCED, log 11. -/
def repeatsThenSettles (k : Nat) (body settle : List Cmd) : Bool :=
  decide (onceIn body ++ settle).Nodup && (repeatedIn body).any (fun c => !settle.contains c) && repeatsExactly k body
    && (settle.all (fun c => !body.contains c) || !hasRun (k + 1) (body ++ settle))

/-- The commands are built with exactly k repetitions and then settle the lines (R80 point 2, spec/00_scope.md R8: the
count is exact; 90_conflicts.md C8, 93_implementation_defined.md U26: the arrangement is free). -/
def builtWithRepeats (k : Nat) (bs : Bytes) : Bool :=
  match cmdsOf bs with
  | none => false
  | some cs => (List.range (cs.length + 1)).any fun n => repeatsThenSettles k (cs.take n) (cs.drop n)

/-- R80 point 2: start and stop are line-state commands only, each built with exactly four repetitions. -/
def lits2 (l : Lits) : Bool :=
  lineStatesOnly l.startSeq && lineStatesOnly l.stopSeq
    && builtWithRepeats Config.startRepeat l.startSeq && builtWithRepeats Config.stopRepeat l.stopSeq

/-- R80 point 3, read as the final byte (90_conflicts.md C6). -/
def lits3 (l : Lits) : Bool := l.stopSeq.getLast? != l.startSeq.getLast?

/-- R80 point 4: the head is that of a byte-out command for one byte, and the tail is a line-state command, a one-bit
input, and then only commands without a response. -/
def lits4 (l : Lits) : Bool :=
  l.boHead == bytesOutHead 1 &&
    match cmdsOf l.boTail with
    | some (.set _ _ :: .bitsIn len :: rest) => len == 0x00#8 && responses rest == 0
    | _ => false

/-- R80 point 5: the read head is one byte-in command for exactly one byte. -/
def lits5 (l : Lits) : Bool := l.rdHead == cmdBytes (.bytesIn 0x00#8 0x00#8)

/-- R80 point 6 as 90_conflicts.md C4 settles it: each loop-group string is non-empty (log 12). -/
def lits6 (l : Lits) : Bool := l.rdG0 != [] && l.rdG1 != [] && l.rdG2 != []

/-- ACK_RELEASE's string is made of commands that produce no response (R80 point 7, R72). -/
def releaseSilent (l : Lits) : Bool :=
  match cmdsOf l.ackReleaseSeq with
  | none => false
  | some cs => responses cs == 0

/-- READ's string, read whole, produces exactly one response, for every loop count it can be emitted with: from 1
(spec/40_bus_primitives.md R99) to the last that fits the buffer, which is at most CAP since no group is empty (R80
point 7; log 12). -/
def readOwesOne (l : Lits) : Bool :=
  (List.range Config.cap).all fun k =>
    decide (Config.cap < rdLength l (k + 1)) || responseCount (rdSeq l (k + 1)) == some 1

/-- R80 point 7: ACK_RELEASE produces no response, READ exactly one. (That BYTE_OUT produces one is point 4, that START
and STOP produce none is point 2.) -/
def lits7 (l : Lits) : Bool := releaseSilent l && readOwesOne l

/-- Every line-state command has the GPIO bits set that `|` would set (R80 point 8, R82): `v | gv = v` and
`d | gd = d`, which says that v and d are some bytes OR-ed with gv and gd. DEDUCED, log 13. -/
def gpioFolded (gv gd : Byte) (bs : Bytes) : Bool :=
  match cmdsOf bs with
  | none => false
  | some cs => cs.all fun c =>
      match c with
      | .set v d => (v ||| gv) == v && (d ||| gd) == d
      | .bytesOut _ => false
      | .bitsIn _ => false
      | .bytesIn _ _ => false
      | .sendImmediate => false

/-- R80 point 8. -/
def lits8 (l : Lits) : Bool := gpioFolded l.gpioVal l.gpioDir l.startSeq && gpioFolded l.gpioVal l.gpioDir l.stopSeq

/-- `LitsWF` (R80). Point 1, constant strings, is the type: a field depends on no argument and no state. -/
def litsWF (l : Lits) : Bool := lits2 l && lits3 l && lits4 l && lits5 l && lits6 l && lits8 l && lits7 l

/-- A READ whose loop groups are silent one by one owes the response of its head alone, whatever the loop count. -/
theorem responseCount_rdSeq {l : Lits} (hd : responseCount l.rdHead = some 1) (h0 : responseCount l.rdG0 = some 0)
    (h1 : responseCount l.rdG1 = some 0) (h2 : responseCount l.rdG2 = some 0) (L : Nat) :
    responseCount (rdSeq l L) = some 1 :=
  responseCount_append (m := 1) (n := 0)
    (responseCount_append (m := 1) (n := 0)
      (responseCount_append (m := 1) (n := 0) hd (responseCount_rep h0 L)) (responseCount_rep h1 L))
    (responseCount_rep h2 L)

/-- LitsWF without its walk over the loop counts, for a LITS whose loop groups are silent one by one. -/
theorem litsWF_of_silentGroups {l : Lits}
    (h : (lits2 l && lits3 l && lits4 l && lits5 l && lits6 l && lits8 l && releaseSilent l) = true)
    (h0 : responseCount l.rdG0 = some 0) (h1 : responseCount l.rdG1 = some 0) (h2 : responseCount l.rdG2 = some 0) :
    litsWF l = true := by
  simp only [Bool.and_eq_true] at h
  have hd : responseCount l.rdHead = some 1 := by rw [show l.rdHead = _ from eq_of_beq h.1.1.1.2]; decide
  have hr : readOwesOne l = true := by
    simp only [readOwesOne, List.all_eq_true, Bool.or_eq_true, beq_iff_eq]
    exact fun k _ => .inr (responseCount_rdSeq hd h0 h1 h2 (k + 1))
  simp [litsWF, lits7, h, hr]

/-- A LITS that passes LitsWF, the only kind a model admits (R80). -/
structure AdmittedLits where
  val : Lits
  wf : litsWF val = true
deriving DecidableEq, Repr

/-- The reference instantiation at the GPIO parameters gv and gd (R81, R82). PRESUMED, log 2: general knowledge, not
the repository's bytes (91_not_in_source.md N2). -/
def refLits (gv gd : Byte) : Lits where
  startSeq := rep 4 (setCmd (0x03#8 ||| gv) (0x13#8 ||| gd)) ++ rep 4 (setCmd (0x01#8 ||| gv) (0x13#8 ||| gd))
    ++ setCmd (0x00#8 ||| gv) (0x13#8 ||| gd)
  stopSeq := rep 4 (setCmd (0x01#8 ||| gv) (0x13#8 ||| gd)) ++ rep 4 (setCmd (0x03#8 ||| gv) (0x13#8 ||| gd))
    ++ setCmd (0x00#8 ||| gv) (0x10#8 ||| gd)
  boHead := [0x11#8, 0x00#8, 0x00#8]
  boTail := setCmd 0x00#8 0x11#8 ++ [0x22#8, 0x00#8] ++ [0x87#8]
  ackReleaseSeq := setCmd 0x02#8 0x13#8
  rdHead := [0x24#8, 0x00#8, 0x00#8]
  rdG0 := setCmd 0x02#8 0x13#8
  rdG1 := setCmd 0x03#8 0x13#8
  rdG2 := setCmd 0x02#8 0x13#8
  gpioVal := gv
  gpioDir := gd

/-- `REF`, with gv = gd = 0x00 (R81); it passes LitsWF (R83). -/
def reference : AdmittedLits :=
  ⟨refLits 0x00#8 0x00#8, litsWF_of_silentGroups (by decide) (by decide) (by decide) (by decide)⟩

end Sys2Proof.Machine
end

