-- ==== Sys2Proof/Machine/State.lean ====
section
/-! DEFINITION. The state of the block (spec/10_state.md R19 to R37), its ports, and what a step answers besides a next
state. Plain data throughout. -/

namespace Sys2Proof.Machine

/-- `PHASE`, the handshake bookkeeping (R31). -/
inductive Phase where
  /-- OPEN: no response is owed. -/
  | open_
  /-- ACK_QUEUED: a BYTE_OUT is in the buffer. -/
  | ackQueued
  /-- ACK_IN_FLIGHT: the handshake byte is owed. -/
  | ackInFlight
  /-- RELEASE_DUE: the handshake byte was sampled. -/
  | releaseDue
  /-- DATA_IN_FLIGHT: read data bytes are owed. -/
  | dataInFlight
deriving DecidableEq, Repr

/-- The causes of a sticky fault (spec/60_exceptions.md R110); their numbers are `FaultCode.code`. -/
inductive FaultCode where
  | illegalRequest
  | ackReleaseOmitted
  | handshakeOrder
  | readLengthUnsupported
  | divisorUnset
  | loopCountZero
  | mixedResponse
  | recvSizeMismatch
  | bufferOverflow
deriving DecidableEq, Repr

/-- The info of a TRANSPORT_ERROR: a flush's answer, or the bytes a receive got (spec/30_encoding.md R66). -/
inductive ErrorInfo where
  | flushAnswer (ans : TxAnswer)
  | received (bs : Bytes)
deriving DecidableEq, Repr

/-- The block's answer to one request (spec/30_encoding.md R66). -/
inductive Result where
  | ok
  | sent (k : Nat)
  | ack (delivered acknowledged : Bool)
  | data (bs : Bytes)
  | transportError (info : ErrorInfo)
  | fault (c : FaultCode)
deriving DecidableEq, Repr

/-- One transport interaction (R33). -/
inductive Event where
  | flush (unit : Bytes) (ans : TxAnswer)
  | recv (n : Nat) (ans : RxAnswer)
deriving DecidableEq, Repr

/-- What the caller does to the block, between requests: present a request word, or reset the session
(spec/20_memory.md R40, R54; spec/70_reset_and_hazards.md R123, R124). -/
inductive Input where
  | request (w : Word)
  | reset
deriving DecidableEq, Repr

/-- The command buffer's cells that hold a value, by address. An address that is not listed holds no value (R22);
the canonical form is `Memory.wf` in Machine/Ops.lean. -/
abbrev Memory := List Host.Cell

/-- The state of one instance. `div` to `hist` are S0 to S8 of R19. -/
structure State where
  /-- S0 DIV (R21). -/
  div : Option Half
  /-- S1 BUF (R22). -/
  buf : Memory
  /-- S2 CUR (R23). -/
  cur : Nat
  /-- S3 PHASE (R31). -/
  phase : Phase
  /-- S4 DATA_OWED (R24). -/
  dataOwed : Nat
  /-- S5 RX_OWED (R25). -/
  rxOwed : Nat
  /-- S6 FAULT (R30). -/
  fault : Option FaultCode
  /-- S7 FAULT_REQ (R30). -/
  faultReq : Option Word
  /-- S8 HIST, oldest event first (R33). -/
  hist : List Event
  /-- The result port: the answer to the last request (spec/30_encoding.md R66; log 7). -/
  result : Option Result
  /-- What the caller will do next, oldest first (log 3). -/
  inputs : List Input
  /-- The transport's coming answers to flushes (log 4). -/
  txAnswers : List TxAnswer
  /-- The transport's coming answers to receives (log 4). -/
  rxAnswers : List RxAnswer
  /-- The MODEL's own counter of transport calls, which numbers the free values (log 6). -/
  draws : Nat
  /-- The instance's parameter LITS; no step writes it (R36; log 1). -/
  lits : AdmittedLits
deriving DecidableEq, Repr

/-- A reason for the machine to stop. -/
inductive Fault where
  /-- Raised by FLUSH alone, when CUR is above CAP: the unit would be read from buffer addresses that do not exist
  (spec/20_memory.md R38). Safe: the machine stops where the spec gives no byte, and no state with `BlockInv` does it
  (log 9). -/
  | addressOutsideBuffer (address : Nat)
deriving DecidableEq, Repr

/-- A reason to give a request no meaning. -/
inductive Refusal where
  /-- Raised by an arm of `exec` whose request has no meaning yet; no arm is left so. Safe. -/
  | notModelled (mnemonic : String)
deriving DecidableEq, Repr

/-- What a step answers. -/
abbrev Answer := Host.Outcome State Fault Refusal

/-- The state after reset of an instance whose LITS is l (R37, spec/70_reset_and_hazards.md R123): the session state at
the values of R37, nothing presented, nothing answered yet. -/
def State.resetOf (l : AdmittedLits) : State where
  div := none
  buf := []
  cur := 0
  phase := .open_
  dataOwed := 0
  rxOwed := 0
  fault := none
  faultReq := none
  hist := []
  result := none
  inputs := []
  txAnswers := []
  rxAnswers := []
  draws := 0
  lits := l

/-- The machine right after reset (R37). The instance is the one at REF (PRESUMED, log 2). -/
def State.reset : State := State.resetOf reference

end Sys2Proof.Machine
end

