-- ==== Sys2Proof/Machine/Flags.lean ====
section
/-! DEFINITION. The outcome flags and the numbered codes: the block keeps no condition codes (spec/10_state.md R29); its
only flag pair is AckResult, decoded from the handshake byte (spec/30_encoding.md R84). -/

namespace Sys2Proof.Machine

/-- `acknowledged`: the handshake byte's bit 0 is 0; bits 7 to 1 carry no meaning (spec/30_encoding.md R84). -/
def acknowledgedBy (h : Byte) : Bool := !h.getLsbD Config.ackBit

/-- The AckResult of RECV_ACK's answer: delivered when exactly one byte came (spec/41_session_transport.md R106). -/
def ackResult : RxAnswer → Result
  | .ok [h] => .ack true (acknowledgedBy h)
  | .ok [] => .ack false false
  | .ok (_ :: _ :: _) => .ack false false
  | .err => .ack false false

/-- Whether a handshake byte was sampled (R106). -/
def handshakeSampled : RxAnswer → Bool
  | .ok [_] => true
  | .ok [] => false
  | .ok (_ :: _ :: _) => false
  | .err => false

/-- FLUSH's result for a unit of k bytes (spec/41_session_transport.md R105). -/
def flushResult (len : Nat) : TxAnswer → Result
  | .ok k => if k = len then .sent k else .transportError (.flushAnswer (.ok k))
  | .err => .transportError (.flushAnswer .err)

/-- RECV's result for n owed bytes (spec/41_session_transport.md R108). -/
def recvResult (n : Nat) : RxAnswer → Result
  | .ok bs => if bs.length = n then .data bs else .transportError (.received bs)
  | .err => .transportError (.received [])

/-- The code of a fault (spec/60_exceptions.md R110); the order of the codes is the priority order (R112). -/
def FaultCode.code : FaultCode → Nat
  | .illegalRequest => 1
  | .ackReleaseOmitted => 2
  | .handshakeOrder => 3
  | .readLengthUnsupported => 4
  | .divisorUnset => 5
  | .loopCountZero => 6
  | .mixedResponse => 7
  | .recvSizeMismatch => 8
  | .bufferOverflow => 9

/-- The code the FAULT register shows, 0 for none (R110). -/
def faultNumber : Option FaultCode → Nat
  | none => 0
  | some c => c.code

/-- The encoding of PHASE (spec/10_state.md R31). -/
def Phase.code : Phase → Nat
  | .open_ => 0
  | .ackQueued => 1
  | .ackInFlight => 2
  | .releaseDue => 3
  | .dataInFlight => 4

/-- The kind code of a result (spec/30_encoding.md R66). -/
def Result.kindCode : Result → Nat
  | .ok => 0
  | .sent _ => 1
  | .ack _ _ => 2
  | .data _ => 3
  | .transportError _ => 4
  | .fault _ => 5

/-- The source's error taxonomy (spec/30_encoding.md R67). -/
inductive ErrorClass where
  | success
  | transportError
  | protocolNack
  | preconditionViolation
deriving DecidableEq, Repr

/-- A result's class (R67). No result is an UnsupportedTimeBaseError, and none has delivered = false with
acknowledged = true (spec/92_eei_decisions.md D12); that pair falls under TransportError by its delivered flag. -/
def Result.errorClass : Result → ErrorClass
  | .ok => .success
  | .sent _ => .success
  | .ack true true => .success
  | .ack true false => .protocolNack
  | .ack false _ => .transportError
  | .data _ => .success
  | .transportError _ => .transportError
  | .fault _ => .preconditionViolation

end Sys2Proof.Machine
end

