-- ==== Sys2Proof/Machine/Operands.lean ====
section
/-! DEFINITION. The loop count that sizes READ's string (spec/40_bus_primitives.md R88 to R91), and the I2C address byte
(spec/30_encoding.md R71). -/

namespace Sys2Proof.Machine

/-- `clock_khz(d) = BASE_KHZ / (1 + d) / 2`, an exact rational (R88, spec/70_reset_and_hazards.md R136). -/
def clockKhz (d : Nat) : ℚ := (Config.baseKhz : ℚ) / (1 + (d : ℚ)) / 2

/-- `round(x) = floor(x + 1/2)` (spec/00_scope.md R11). -/
def roundHalfUp (x : ℚ) : ℤ := Rat.floor (x + 1 / 2)

/-- The loop count as the source writes it: `round(LOOP_SCALE * LOOP_REF_KHZ / clock_khz(d))` (R88). -/
def loopCountFormula (d : Nat) : ℤ :=
  roundHalfUp ((Config.loopScale : ℚ) * (Config.loopRefKhz : ℚ) / clockKhz d)

/-- `LoopCount(d) = floor((2·d + 17) / 30)` (R89), the form the machine computes with. -/
def loopCount (d : Half) : Nat := (2 * d.toNat + 17) / 30

/-- The address byte `A(dev, rw) = ((dev << 1) | rw) & 0xFF`, rw = 0 for write and 1 for read
(spec/30_encoding.md R71). -/
def addressByte (dev : Nat) (rw : Bool) : Byte := BitVec.ofNat 8 (((dev <<< 1) ||| rw.toNat) &&& 0xFF)

end Sys2Proof.Machine
end

