-- ==== Sys2Proof/Machine/Ops.lean ====
section
/-! DEFINITION. The named operations every request is written over: the command buffer (spec/20_memory.md R45, R47), the
transport port (spec/00_scope.md R14, spec/20_memory.md R53), taking a fault (spec/60_exceptions.md R113, R114), the
common prologue (R111) with the admission matrix (spec/70_reset_and_hazards.md R128), reset (R123), and the request port
(spec/20_memory.md R40). -/

namespace Sys2Proof.Machine

/-! ### The command buffer -/

/-- The canonical form of a buffer: addresses strictly rising, all inside the address space 0..CAP-1
(spec/20_memory.md R38, R39). An unlisted address holds no value, so no entry can equal what it reads as. -/
def Memory.wf : Memory → Bool
  | [] => true
  | [c] => decide (c.1 < Config.cap)
  | c :: d :: m => decide (c.1 < d.1) && Memory.wf (d :: m)

/-- The byte at a buffer address: `none` where the cell holds no value (spec/10_state.md R22; log 8). -/
def Memory.read (m : Memory) (a : Nat) : Option Byte :=
  match m with
  | [] => none
  | c :: m => if c.1 = a then some c.2 else Memory.read m a

/-- The cells of a byte string stored from address a on (spec/20_memory.md R44: ascending order). -/
def cellsFrom (a : Nat) : Bytes → Memory
  | [] => []
  | b :: bs => (a, b) :: cellsFrom (a + 1) bs

/-- `MemWrite(a, n, s)` (spec/00_scope.md R13): the cells below a, the new ones, the cells above. -/
def Memory.write (m : Memory) (a : Nat) (bs : Bytes) : Memory :=
  m.filter (fun c => decide (c.1 < a)) ++ cellsFrom a bs ++ m.filter (fun c => decide (a + bs.length ≤ c.1))

/-- The byte MemRead gets from one cell: its value, or a free value where it holds none (`any value`,
spec/93_implementation_defined.md U18; log 8). -/
def cellByte (s : State) (a : Nat) : Byte := (s.buf.read a).getD (Config.freeCell s.draws a)

/-- `MemRead(a, n)` (spec/00_scope.md R13), in ascending address order (spec/20_memory.md R44). -/
def memRead (s : State) (a : Nat) : Nat → Bytes
  | 0 => []
  | n + 1 => cellByte s a :: memRead s (a + 1) n

/-- The unit a FLUSH would send: `MemRead(0, CUR)` (spec/20_memory.md R47). -/
def unitOf (s : State) : Bytes := memRead s 0 s.cur

/-- `Append(s)`: the capacity check, then all of the string at CUR (spec/20_memory.md R45). -/
def append (s : State) (bs : Bytes) : Except FaultCode State :=
  if s.cur + bs.length > Config.cap then .error .bufferOverflow
  else .ok { s with buf := s.buf.write s.cur bs, cur := s.cur + bs.length }

/-! ### The transport port -/

/-- An answer R53 allows to a receive of n bytes: at most n bytes come (log 5). -/
def allowedAnswer (n : Nat) : RxAnswer → RxAnswer
  | .ok bs => .ok (bs.take n)
  | .err => .err

/-- The next flush answer: the next listed one, or a free value (spec/20_memory.md R53; log 4). -/
def nextTxAnswer (s : State) : TxAnswer :=
  match s.txAnswers with
  | a :: _ => a
  | [] => Config.freeTxAnswer s.draws

/-- The next answer to a receive of n bytes (spec/20_memory.md R53; log 4). -/
def nextRxAnswer (n : Nat) (s : State) : RxAnswer :=
  match s.rxAnswers with
  | a :: _ => allowedAnswer n a
  | [] => allowedAnswer n (Config.freeRxAnswer s.draws)

/-- `TxFlush(unit)` with its HIST entry: one transport call (spec/00_scope.md R14, spec/41_session_transport.md R102). -/
def txFlush (unit : Bytes) (s : State) : State :=
  { s with
    hist := s.hist ++ [.flush unit (nextTxAnswer s)]
    txAnswers := s.txAnswers.tail
    draws := s.draws + 1 }

/-- `RxRecv(n)` with its HIST entry: one transport call (spec/00_scope.md R14, spec/41_session_transport.md R102). -/
def rxRecv (n : Nat) (s : State) : State :=
  { s with
    hist := s.hist ++ [.recv n (nextRxAnswer n s)]
    rxAnswers := s.rxAnswers.tail
    draws := s.draws + 1 }

/-! ### Results and faults -/

/-- `return r`: the result port carries r (spec/00_scope.md R15). -/
def reply (r : Result) (s : State) : State := { s with result := some r }

/-- Fault entry, `raise Fault(code)` for the word w being performed: FAULT and FAULT_REQ are written, nothing else is,
and FAULT(code) is returned (spec/60_exceptions.md R113). -/
def raise (c : FaultCode) (w : Word) (s : State) : State :=
  { s with fault := some c, faultReq := some w, result := some (.fault c) }

/-- The phases a request is admitted in (the "Admitted in" lines of spec/40_bus_primitives.md and
spec/41_session_transport.md). -/
def admittedPhases : Instr → List Phase
  | .configure _ => [.open_]
  | .start => [.open_]
  | .stop => [.open_]
  | .byteOut _ => [.open_]
  | .ackRelease => [.releaseDue, .open_]
  | .read _ => [.open_]
  | .flush => [.open_, .ackQueued]
  | .recvAck => [.ackInFlight]
  | .recv _ => [.dataInFlight]

/-- `Admit(req)` (spec/70_reset_and_hazards.md R128): the fault of a request that PHASE does not let in. -/
def admission (i : Instr) (p : Phase) : Option FaultCode :=
  if p = .releaseDue ∧ i ≠ .ackRelease then some .ackReleaseOmitted
  else if p ∈ admittedPhases i then none
  else some .handshakeOrder

/-- The common prologue for a decoded request (spec/60_exceptions.md R111): the sticky fault (R114), then admission.
`some t` where the request ends there with t. -/
def prologue (i : Instr) (s : State) : Option State :=
  match s.fault with
  | some c => some (reply (.fault c) s)
  | none =>
    match admission i s.phase with
    | some c => some (raise c (encode i) s)
    | none => none

/-- `Perform` for a decoded request: the prologue, then the request's body (spec/60_exceptions.md R111). -/
def perform (i : Instr) (s : State) (body : Answer) : Answer :=
  match prologue i s with
  | some t => .next t
  | none => body

/-- The end of a body: its state, or fault entry with the request's word (spec/60_exceptions.md R111, R113; log 15). -/
def conclude (i : Instr) (s : State) (r : Except FaultCode State) : Answer :=
  .next (match r with
    | .ok t => t
    | .error c => raise c (encode i) s)

/-- `Perform` of a word that decodes to no request (spec/60_exceptions.md R111, spec/30_encoding.md R64): the sticky
fault first, then ILLEGAL_REQUEST. -/
def performIllegal (w : Word) (s : State) : State :=
  match s.fault with
  | some c => reply (.fault c) s
  | none => raise .illegalRequest w s

/-! ### Reset and the request port -/

/-- The reset input (spec/70_reset_and_hazards.md R123, R124): every state element takes its reset value, with no
transport call; the instance's LITS and what the environment will do stay (log 17). -/
def resetSession (s : State) : State :=
  { State.resetOf s.lits with
    inputs := s.inputs
    txAnswers := s.txAnswers
    rxAnswers := s.rxAnswers
    draws := s.draws }

/-- The next input of the request port and the state without it (spec/20_memory.md R40; log 3). -/
def takeInput (s : State) : Option (Input × State) :=
  match s.inputs with
  | [] => none
  | x :: rest => some (x, { s with inputs := rest })

/-- The word w presented next on the request port. -/
def present (w : Word) (s : State) : State := { s with inputs := .request w :: s.inputs }

end Sys2Proof.Machine
end

