-- ==== Sys2Proof/Machine/Encoder.lean ====
section
/-! DEFINITION. The bus primitives START, STOP, BYTE_OUT, ACK_RELEASE and READ (spec/40_bus_primitives.md). -/

namespace Sys2Proof.Machine

/-- START (R93): `Append(LITS.start_seq); return OK`. -/
def startBody (s : State) : Except FaultCode State := (append s s.lits.val.startSeq).map (reply .ok)

def execStart (s : State) : Answer := perform .start s (conclude .start s (startBody s))

/-- STOP (R95): `Append(LITS.stop_seq); return OK`. -/
def stopBody (s : State) : Except FaultCode State := (append s s.lits.val.stopSeq).map (reply .ok)

def execStop (s : State) : Answer := perform .stop s (conclude .stop s (stopBody s))

/-- BYTE_OUT b (R96): MIXED_RESPONSE while a READ is in the buffer, else the append, and PHASE to ACK_QUEUED. -/
def byteOutBody (b : Byte) (s : State) : Except FaultCode State :=
  if s.dataOwed > 0 then .error .mixedResponse
  else (append s (byteOutSeq s.lits.val b)).map fun t => reply .ok { t with phase := .ackQueued }

def execByteOut (b : Byte) (s : State) : Answer := perform (.byteOut b) s (conclude (.byteOut b) s (byteOutBody b s))

/-- ACK_RELEASE (R98): the append, and PHASE to OPEN. -/
def ackReleaseBody (s : State) : Except FaultCode State :=
  (append s s.lits.val.ackReleaseSeq).map fun t => reply .ok { t with phase := .open_ }

def execAckRelease (s : State) : Answer := perform .ackRelease s (conclude .ackRelease s (ackReleaseBody s))

/-- READ n (R99): the length, the divisor and the loop count are checked in that order, then RdSeq(L) is appended and one
more response byte is owed. -/
def readBody (n : Half) (s : State) : Except FaultCode State :=
  if n.toNat ∉ Config.readNAdmitted then .error .readLengthUnsupported
  else
    match s.div with
    | none => .error .divisorUnset
    | some d =>
      if loopCount d = 0 then .error .loopCountZero
      else (append s (rdSeq s.lits.val (loopCount d))).map fun t => reply .ok { t with dataOwed := t.dataOwed + 1 }

def execRead (n : Half) (s : State) : Answer := perform (.read n) s (conclude (.read n) s (readBody n s))

end Sys2Proof.Machine
end

