-- ==== Sys2Proof/Machine/Session.lean ====
section
/-! DEFINITION. The session and transport requests CONFIGURE, FLUSH, RECV_ACK and RECV
(spec/41_session_transport.md). -/

namespace Sys2Proof.Machine

/-- CONFIGURE d (R103): `DIV <- d; return OK`. -/
def configureBody (d : Half) (s : State) : Except FaultCode State := .ok (reply .ok { s with div := some d })

def execConfigure (d : Half) (s : State) : Answer := perform (.configure d) s (conclude (.configure d) s (configureBody d s))

/-- PHASE after a FLUSH (R105). -/
def phaseAfterFlush (s : State) : Phase :=
  if s.phase = .ackQueued then .ackInFlight else if s.dataOwed > 0 then .dataInFlight else s.phase

/-- RX_OWED after a FLUSH (R105). -/
def rxOwedAfterFlush (s : State) : Nat :=
  if s.phase = .ackQueued then 1 else if s.dataOwed > 0 then s.dataOwed else s.rxOwed

/-- DATA_OWED after a FLUSH (R105). -/
def dataOwedAfterFlush (s : State) : Nat :=
  if s.phase = .ackQueued then s.dataOwed else 0

/-- FLUSH (R105): the unit goes to the transport whole, the buffer is emptied and PHASE and the owed counts advance
whatever the answer, and the result tells the answer. The cells keep their old bytes (spec/20_memory.md R48). -/
def flushBody (s : State) : State :=
  reply (flushResult (unitOf s).length (nextTxAnswer s))
    { txFlush (unitOf s) s with
      cur := 0
      phase := phaseAfterFlush s
      rxOwed := rxOwedAfterFlush s
      dataOwed := dataOwedAfterFlush s }

/-- FLUSH; a unit that would come from addresses above CAP - 1 stops the machine (log 9). -/
def execFlush (s : State) : Answer :=
  perform .flush s
    (if s.cur ≤ Config.cap then .next (flushBody s) else .fault (.addressOutsideBuffer Config.cap))

/-- RECV_ACK (R106): one byte is asked for; a byte that came makes a release due, and its bit 0 is the result. -/
def recvAckBody (s : State) : State :=
  reply (ackResult (nextRxAnswer 1 s))
    { rxRecv 1 s with
      rxOwed := 0
      phase := if handshakeSampled (nextRxAnswer 1 s) then .releaseDue else .open_ }

def execRecvAck (s : State) : Answer := perform .recvAck s (.next (recvAckBody s))

/-- RECV n (R108): n must be what is owed; the bytes that came are the result, and the debt is cleared whatever came. -/
def recvBody (n : Half) (s : State) : Except FaultCode State :=
  if n.toNat ≠ s.rxOwed then .error .recvSizeMismatch
  else .ok (reply (recvResult n.toNat (nextRxAnswer n.toNat s))
    { rxRecv n.toNat s with rxOwed := 0, phase := .open_ })

def execRecv (n : Half) (s : State) : Answer := perform (.recv n) s (conclude (.recv n) s (recvBody n s))

end Sys2Proof.Machine
end

