-- ==== Sys2Proof/Machine/Dispatch.lean ====
section
/-! DEFINITION. One arm per request: spec/opcode_table.json, row by row. -/

namespace Sys2Proof.Machine

def exec (i : Instr) (s : State) : Host.Outcome State Fault Refusal :=
  match i with
  | .configure d => Sys2Proof.Machine.execConfigure d s
  | .start => Sys2Proof.Machine.execStart s
  | .stop => Sys2Proof.Machine.execStop s
  | .byteOut b => Sys2Proof.Machine.execByteOut b s
  | .ackRelease => Sys2Proof.Machine.execAckRelease s
  | .read n => Sys2Proof.Machine.execRead n s
  | .flush => Sys2Proof.Machine.execFlush s
  | .recvAck => Sys2Proof.Machine.execRecvAck s
  | .recv n => Sys2Proof.Machine.execRecv n s

end Sys2Proof.Machine
end

