-- ==== Sys2Proof/Machine/Step.lean ====
section
/-! DEFINITION. One step of the block: the next input of the request port (spec/20_memory.md R40). -/

namespace Sys2Proof.Machine

/-- `Perform(w)` (spec/60_exceptions.md R111), the sticky-fault check being in both branches. -/
def performWord (w : Word) (s : State) : Answer :=
  match decode w with
  | some i => exec i s
  | none => .next (performIllegal w s)

/-- One step: a presented request is performed completely, a reset starts a new session, and with nothing presented the
block is idle and holds its state (spec/60_exceptions.md R122). -/
def step (s : State) : Host.Outcome State Fault Refusal :=
  match takeInput s with
  | none => .next s
  | some (.reset, t) => .next (resetSession t)
  | some (.request w, t) => performWord w t

/-- s with the request of nbits bits w presented next: the request port is the only place a request comes from
(spec/10_state.md R27), so this is the program of one request (log 3). -/
def State.withFetchWord (s : State) (nbits w : Nat) : State := present (BitVec.ofNat 32 (w % 2 ^ nbits)) s

end Sys2Proof.Machine
end

