-- ==== Sys2Proof/Machine/Assembler.lean ====
section
/-! DEFINITION. The spec's assembler syntax, one request a line (spec/30_encoding.md R68). What R68 leaves open (which
blanks separate, capitals, digits' case) is log 18. -/

namespace Sys2Proof.Machine

/-- What the assembler makes of a line. -/
inductive Assembled where
  /-- Nothing stands before the comment. -/
  | blank
  /-- The line's request word. -/
  | word (w : Word)
  /-- The line is refused. -/
  | refused
deriving DecidableEq, Repr

/-- The value of a decimal digit. -/
def decimalDigit (c : Char) : Option Nat :=
  if 48 ≤ c.toNat ∧ c.toNat ≤ 57 then some (c.toNat - 48) else none

/-- The value of a hexadecimal digit. -/
def hexDigit (c : Char) : Option Nat :=
  if 97 ≤ c.toNat ∧ c.toNat ≤ 102 then some (c.toNat - 87)
  else if 65 ≤ c.toNat ∧ c.toNat ≤ 70 then some (c.toNat - 55)
  else decimalDigit c

/-- The number whose digits, most significant first, follow those that gave acc. -/
def digitsFrom (base : Nat) (digit : Char → Option Nat) (acc : Nat) : List Char → Option Nat
  | [] => some acc
  | c :: cs =>
    match digit c with
    | none => none
    | some d => digitsFrom base digit (acc * base + d) cs

/-- An operand: a decimal number or a `0x` hexadecimal number (R68). -/
def operandNumber : List Char → Option Nat
  | [] => none
  | ['0', 'x'] => none
  | '0' :: 'x' :: cs => digitsFrom 16 hexDigit 0 cs
  | cs => digitsFrom 10 decimalDigit 0 cs

/-- A mnemonic with its operand, if any, as a request: the operand ranges of R68, no operand on an operand-less
mnemonic, one on every other. -/
def requestOf (mnemonic : List Char) (operand : Option Nat) : Option Instr :=
  match operand with
  | none =>
    if mnemonic = ['S', 'T', 'A', 'R', 'T'] then some .start
    else if mnemonic = ['S', 'T', 'O', 'P'] then some .stop
    else if mnemonic = ['A', 'C', 'K', '_', 'R', 'E', 'L', 'E', 'A', 'S', 'E'] then some .ackRelease
    else if mnemonic = ['F', 'L', 'U', 'S', 'H'] then some .flush
    else if mnemonic = ['R', 'E', 'C', 'V', '_', 'A', 'C', 'K'] then some .recvAck
    else none
  | some n =>
    if mnemonic = ['C', 'O', 'N', 'F', 'I', 'G', 'U', 'R', 'E'] then
      if n ≤ 65535 then some (.configure (BitVec.ofNat 16 n)) else none
    else if mnemonic = ['B', 'Y', 'T', 'E', '_', 'O', 'U', 'T'] then
      if n ≤ 255 then some (.byteOut (BitVec.ofNat 8 n)) else none
    else if mnemonic = ['R', 'E', 'A', 'D'] then
      if n ≤ 65535 then some (.read (BitVec.ofNat 16 n)) else none
    else if mnemonic = ['R', 'E', 'C', 'V'] then
      if n ≤ 65535 then some (.recv (BitVec.ofNat 16 n)) else none
    else none

/-- The line before its comment: `;` starts a comment that runs to the end of the line (R68). -/
def beforeComment : List Char → List Char
  | [] => []
  | c :: cs => if c = ';' then [] else c :: beforeComment cs

/-- The words of a line, separated by blanks. -/
def wordsOf : List Char → List (List Char)
  | [] => []
  | c :: cs =>
    if c = ' ' ∨ c = '\t' then [] :: wordsOf cs
    else
      match wordsOf cs with
      | [] => [[c]]
      | w :: ws => (c :: w) :: ws

/-- The word a request assembles to, or a refusal. -/
def assembledRequest : Option Instr → Assembled
  | none => .refused
  | some i => .word (encode i)

/-- One line of a listing (R68). -/
def assembleLine (line : List Char) : Assembled :=
  match (wordsOf (beforeComment line)).filter fun w => w ≠ [] with
  | [] => .blank
  | [m] => assembledRequest (requestOf m none)
  | [m, o] =>
    match operandNumber o with
    | none => .refused
    | some n => assembledRequest (requestOf m (some n))
  | _ :: _ :: _ :: _ => .refused

end Sys2Proof.Machine
end

