-- ==== Sys2Proof/Machine/Macros.lean ====
section
/-! DEFINITION. The caller's pseudo-instruction SEND and macros WRITE_REG and READ_REG (spec/30_encoding.md R69 to R71).
They belong to the out-of-scope coordinator and are no requests of the block: each is a caller that performs requests in
order, reads each result, and picks the next request from it. -/

namespace Sys2Proof.Machine

/-- What a caller's sequence answers: the block's state and the sequence's own result. -/
abbrev CallerAnswer := Host.Outcome (State × Option Result) Fault Refusal

/-- Perform a request, then go on from the state it leaves. -/
def andThen (a : Answer) (k : State → CallerAnswer) : CallerAnswer :=
  match a with
  | .next t => k t
  | .fault r => .fault r
  | .refused r => .refused r

/-- Go on from a sequence unless its result is `ACK(false, false)`, which ends the macro at once (R70). -/
def unlessUndelivered (a : CallerAnswer) (k : State → Option Result → CallerAnswer) : CallerAnswer :=
  match a with
  | .next (t, r) => if r = some (.ack false false) then .next (t, r) else k t r
  | .fault r => .fault r
  | .refused r => .refused r

/-- The last part of SEND: ACK_RELEASE only if delivered, and SEND's result is RECV_ACK's (R69). -/
def releaseIfDelivered (s : State) : CallerAnswer :=
  match s.result with
  | some (.ack true a) => andThen (exec .ackRelease s) fun t => .next (t, some (.ack true a))
  | r => .next (s, r)

/-- `SEND b` = BYTE_OUT b; FLUSH; RECV_ACK; ACK_RELEASE if delivered (R69). -/
def sendByte (b : Byte) (s : State) : CallerAnswer :=
  andThen (exec (.byteOut b) s) fun s1 => andThen (exec .flush s1) fun s2 => andThen (exec .recvAck s2) releaseIfDelivered

/-- STOP; FLUSH, keeping the macro's result. -/
def stopAndFlush (r : Option Result) (s : State) : CallerAnswer :=
  andThen (exec .stop s) fun s1 => andThen (exec .flush s1) fun s2 => .next (s2, r)

/-- `WRITE_REG dev, reg, val` = START; SEND A(dev,0); SEND reg; SEND val; STOP; FLUSH; its result is that of the last
SEND performed (R70). -/
def writeReg (dev : Nat) (reg val : Byte) (s : State) : CallerAnswer :=
  andThen (exec .start s) fun s1 =>
    unlessUndelivered (sendByte (addressByte dev false) s1) fun s2 _ =>
      unlessUndelivered (sendByte reg s2) fun s3 _ =>
        unlessUndelivered (sendByte val s3) fun s4 r => stopAndFlush r s4

/-- READ 1; STOP; FLUSH; RECV 1, with RECV's result (R70). -/
def readTail (s : State) : CallerAnswer :=
  andThen (exec (.read 1#16) s) fun s1 => andThen (exec .stop s1) fun s2 => andThen (exec .flush s2) fun s3 =>
    andThen (exec (.recv 1#16) s3) fun s4 => .next (s4, s4.result)

/-- `READ_REG dev, reg` = START; SEND A(dev,0); SEND reg; START; SEND A(dev,1); READ 1; STOP; FLUSH; RECV 1, with RECV's
result (R70). R70 gives no result for a READ_REG that a SEND ends early, before any RECV; the model gives that SEND's own
result, `ACK(false, false)` (DESIGN CHOICE, log 20). -/
def readReg (dev : Nat) (reg : Byte) (s : State) : CallerAnswer :=
  andThen (exec .start s) fun s1 =>
    unlessUndelivered (sendByte (addressByte dev false) s1) fun s2 _ =>
      unlessUndelivered (sendByte reg s2) fun s3 _ =>
        andThen (exec .start s3) fun s4 =>
          unlessUndelivered (sendByte (addressByte dev true) s4) fun s5 _ => readTail s5

end Sys2Proof.Machine
end

