-- ==== Sys2Proof/Safety.lean ====
section
/-! DEFINITION. What claims are stated in: the invariant of every reachable state (spec/10_state.md R32), a clean end of a
session (spec/70_reset_and_hazards.md R137), the fault causes and the admission matrix as the spec's tables give them
(spec/60_exceptions.md R110, spec/70_reset_and_hazards.md R128), and the frames. -/

namespace Sys2Proof.Machine

/-- The invariants of R32, which hold whether or not FAULT is set since a fault writes nothing else (R113), with those the
spec states elsewhere: the buffer's form (R22, R38), the bounds of R24, the receive bound of R53. -/
structure BlockInv (s : State) : Prop where
  bufferCanonical : s.buf.wf = true
  cursorInBuffer : s.cur ≤ Config.cap
  cellsBelowCursorHeld : ∀ a, a < s.cur → (s.buf.read a).isSome = true
  nothingOwed : s.phase = .open_ ∨ s.phase = .ackQueued ∨ s.phase = .releaseDue → s.rxOwed = 0
  handshakeOwed : s.phase = .ackInFlight → s.rxOwed = 1
  readDataOwed : s.phase = .dataInFlight → 1 ≤ s.rxOwed
  readsOnlyWhileOpen : 0 < s.dataOwed → s.phase = .open_
  emptyAwaiting : s.phase = .ackInFlight ∨ s.phase = .releaseDue ∨ s.phase = .dataInFlight → s.cur = 0
  byteOutQueued : s.phase = .ackQueued → s.lits.val.boHead.length + 1 + s.lits.val.boTail.length ≤ s.cur
  readsFillBuffer : 4 * s.dataOwed ≤ s.cur
  owedInBuffer : s.rxOwed ≤ Config.cap
  faultPairs : s.fault.isSome = s.faultReq.isSome
  answersBounded : ∀ n bs, Event.recv n (.ok bs) ∈ s.hist → bs.length ≤ n

/-- A clean end of a session (R137). It says nothing of the bus, the adapter or the transport's answers. -/
def cleanEnd (s : State) : Bool :=
  s.fault == none && s.phase == .open_ && s.cur == 0 && s.dataOwed == 0

/-- The admission matrix of R128, row by row, its columns OPEN, ACK_QUEUED, ACK_IN_FLIGHT, RELEASE_DUE,
DATA_IN_FLIGHT; `none` is "adm". -/
def matrixRow : Instr → List (Option FaultCode)
  | .configure _ => [none, some .handshakeOrder, some .handshakeOrder, some .ackReleaseOmitted, some .handshakeOrder]
  | .start => [none, some .handshakeOrder, some .handshakeOrder, some .ackReleaseOmitted, some .handshakeOrder]
  | .stop => [none, some .handshakeOrder, some .handshakeOrder, some .ackReleaseOmitted, some .handshakeOrder]
  | .byteOut _ => [none, some .handshakeOrder, some .handshakeOrder, some .ackReleaseOmitted, some .handshakeOrder]
  | .ackRelease => [none, some .handshakeOrder, some .handshakeOrder, none, some .handshakeOrder]
  | .read _ => [none, some .handshakeOrder, some .handshakeOrder, some .ackReleaseOmitted, some .handshakeOrder]
  | .flush => [none, none, some .handshakeOrder, some .ackReleaseOmitted, some .handshakeOrder]
  | .recvAck => [some .handshakeOrder, some .handshakeOrder, none, some .ackReleaseOmitted, some .handshakeOrder]
  | .recv _ => [some .handshakeOrder, some .handshakeOrder, some .handshakeOrder, some .ackReleaseOmitted, none]

/-- The matrix's column of a phase. -/
def matrixColumn : Phase → Nat
  | .open_ => 0
  | .ackQueued => 1
  | .ackInFlight => 2
  | .releaseDue => 3
  | .dataInFlight => 4

/-- The cell of the admission matrix (R128). -/
def matrixCell (i : Instr) (p : Phase) : Option FaultCode := ((matrixRow i)[matrixColumn p]?).getD none

/-- The string an encoder operation appends, a function of LITS, the operand and, for READ, the divisor
(spec/40_bus_primitives.md R87); `none` for a request that appends nothing, or READ without a divisor. -/
def stringOf (l : Lits) (div : Option Half) : Instr → Option Bytes
  | .configure _ => none
  | .start => some l.startSeq
  | .stop => some l.stopSeq
  | .byteOut b => some (byteOutSeq l b)
  | .ackRelease => some l.ackReleaseSeq
  | .read _ => div.map fun d => rdSeq l (loopCount d)
  | .flush => none
  | .recvAck => none
  | .recv _ => none

/-- Whether the cause of a fault code applies to a decoded request (the "cause" and "raised by" columns of
spec/60_exceptions.md R110). -/
def causeOf (i : Instr) (s : State) : FaultCode → Prop
  | .illegalRequest => False
  | .ackReleaseOmitted => s.phase = .releaseDue ∧ i ≠ .ackRelease
  | .handshakeOrder => matrixCell i s.phase = some .handshakeOrder
  | .readLengthUnsupported => ∃ n, i = .read n ∧ n.toNat ≠ 1
  | .divisorUnset => ∃ n, i = .read n ∧ s.div = none
  | .loopCountZero => ∃ n d, i = .read n ∧ s.div = some d ∧ d.toNat ≤ 6
  | .mixedResponse => ∃ b, i = .byteOut b ∧ 0 < s.dataOwed
  | .recvSizeMismatch => ∃ n, i = .recv n ∧ n.toNat ≠ s.rxOwed
  | .bufferOverflow => ∃ bs, stringOf s.lits.val s.div i = some bs ∧ Config.cap < s.cur + bs.length

/-- Whether the cause of a fault code applies to a request word (R110). -/
def wordCause (w : Word) (s : State) (c : FaultCode) : Prop :=
  match decode w with
  | none => c = .illegalRequest
  | some i => causeOf i s c

/-- Some piece that is not empty stands in the list n times in a row. -/
def HasRun {α : Type} (n : Nat) (cs : List α) : Prop := ∃ w : List α, w ≠ [] ∧ (List.replicate n w).flatten <:+: cs

/-- The list is not one piece written more than k times. -/
def PowerAtMost (k : Nat) (cs : List Cmd) : Prop := ∀ m v, (List.replicate m v).flatten = cs → m ≤ k

/-- The list is one piece written k times, and not one written more often. -/
structure ExactCycles (k : Nat) (cs : List Cmd) : Prop where
  cycles : ∃ w, (List.replicate k w).flatten = cs
  most : PowerAtMost k cs

/-- The list is blocks of exactly k cycles each: pieces that are themselves no repetition and hold no k in a row, each
written k times, no piece twice in a row, and no blocks k + 1 times in a row. -/
def Blocks (k : Nat) (cs : List Cmd) : Prop :=
  ∃ ws : List (List Cmd), cs = (ws.map fun w => (List.replicate k w).flatten).flatten ∧ ws.IsChain (· ≠ ·)
    ∧ ¬ HasRun (k + 1) ws ∧ ∀ w ∈ ws, PowerAtMost 1 w ∧ ¬ HasRun k w

/-- The list is exactly k repetitions and what stands once: k copies of some commands, wherever they stand, nothing more
than k times in a row, or k cycles, or blocks of k cycles each (spec/30_encoding.md R80 point 2, spec/00_scope.md R8;
log 11). -/
structure ExactRepeats (k : Nat) (cs : List Cmd) : Prop where
  copies : ∀ c ∈ cs, cs.count c = 1 ∨ k ∣ cs.count c
  noneMore : ¬ HasRun (k + 1) cs ∨ ExactCycles k (repeatedIn cs) ∨ Blocks k (repeatedIn cs)

/-- The commands are exactly k repetitions and then a way to settle that is no repetition (spec/30_encoding.md R80 point 2,
spec/00_scope.md R8; log 11). -/
structure RepeatsThenSettles (k : Nat) (body settle : List Cmd) : Prop where
  exactly : ExactRepeats k body
  notAll : ∃ c ∈ body, body.count c ≠ 1 ∧ c ∉ settle
  once : settle.Nodup ∧ ∀ c ∈ settle, body.count c ≠ 1
  noRun : (∀ c ∈ settle, c ∉ body) ∨ ¬ HasRun (k + 1) (body ++ settle)

/-- The buffered bytes produce the responses that DATA_OWED and PHASE count (spec/30_encoding.md R80 point 7,
spec/10_state.md R24, R31). -/
def BufferOwes (s : State) : Prop :=
  responseCount (unitOf s) = some (s.dataOwed + if s.phase = .ackQueued then 1 else 0)

/-- The block is ready for a new unit: no fault, OPEN, nothing buffered, nothing owed. -/
structure NothingPending (s : State) : Prop where
  fault : s.fault = none
  phase : s.phase = .open_
  cur : s.cur = 0
  dataOwed : s.dataOwed = 0
  rxOwed : s.rxOwed = 0

/-- The bytes of the units in a history, in order (R33, R41). -/
def sentBytes : List Event → Bytes
  | [] => []
  | .flush unit _ :: h => unit ++ sentBytes h
  | .recv _ _ :: h => sentBytes h

/-! ### Frames -/

/-- The state elements S0 to S8 agree. -/
structure SameSession (s t : State) : Prop where
  div : t.div = s.div
  buf : t.buf = s.buf
  cur : t.cur = s.cur
  phase : t.phase = s.phase
  dataOwed : t.dataOwed = s.dataOwed
  rxOwed : t.rxOwed = s.rxOwed
  fault : t.fault = s.fault
  faultReq : t.faultReq = s.faultReq
  hist : t.hist = s.hist

/-- Nothing is taken from the environment, and LITS stays. -/
structure SameEnvironment (s t : State) : Prop where
  inputs : t.inputs = s.inputs
  txAnswers : t.txAnswers = s.txAnswers
  rxAnswers : t.rxAnswers = s.rxAnswers
  draws : t.draws = s.draws
  lits : t.lits = s.lits

/-- bs stands at CUR, CUR moves past it, and every other address reads as before (R45). -/
structure Appended (s t : State) (bs : Bytes) : Prop where
  cursor : t.cur = s.cur + bs.length
  stored : ∀ k b, bs[k]? = some b → t.buf.read (s.cur + k) = some b
  elsewhere : ∀ a, a < s.cur ∨ s.cur + bs.length ≤ a → t.buf.read a = s.buf.read a

/-- What no encoder operation writes: DIV, RX_OWED, HIST, the fault registers, the environment (R86). -/
structure EncoderFrame (s t : State) : Prop where
  div : t.div = s.div
  rxOwed : t.rxOwed = s.rxOwed
  fault : t.fault = s.fault
  faultReq : t.faultReq = s.faultReq
  hist : t.hist = s.hist
  environment : SameEnvironment s t

/-- What no transport request writes: DIV, the buffer's cells, the fault registers, the coming inputs, LITS (R105, R106,
R108). -/
structure TransportFrame (s t : State) : Prop where
  div : t.div = s.div
  cells : ∀ a, t.buf.read a = s.buf.read a
  fault : t.fault = s.fault
  faultReq : t.faultReq = s.faultReq
  inputs : t.inputs = s.inputs
  lits : t.lits = s.lits

/-- The request takes fault entry with code c and its own word (R113). -/
def Raises (i : Instr) (s : State) (c : FaultCode) : Prop := exec i s = .next (raise c (encode i) s)

end Sys2Proof.Machine
end

