-- ==== Sys2Proof/Certificates/Slice0/Obligations.lean ====
section
/-! DEFINITION. The statements for the provers, from the numbered rules of spec/. Each docstring names the rule. A
statement about REF's bytes says so; every other statement holds for every LITS that passes LitsWF. -/

section

open Sys2Proof Sys2Proof.Machine

/-! ### Encodings -/

/-- spec/30_encoding.md R61, R62, R63 and the [derived] clause of R65: encoding and decoding agree in both directions,
every operand at every value its field admits, and two legal words with one decoding are one word. -/
def Obligations.DecodeOfEncode : Prop :=
  (∀ i : Instr, decode (encode i) = some i)
  ∧ (∀ (w : Word) (i : Instr), decode w = some i → encode i = w)
  ∧ (∀ (w v : Word) (i : Instr), decode w = some i → decode v = some i → w = v)

/-- R64: the illegal words are exactly those of its list, performing one raises ILLEGAL_REQUEST, and READ and RECV words
with any n are legal. -/
def Obligations.IllegalWordsFault : Prop :=
  (∀ w : Word, decode w = none ↔ (reservedOp w ∨ reservedBitsSet w ∨ strayOperand w ∨ wideByte w))
  ∧ (∀ (w : Word) (s : State), decode w = none → s.fault = none → performWord w s = .next (raise .illegalRequest w s))
  ∧ (∀ n : Half, decode (0x6#4 ++ 0#12 ++ n) = some (.read n) ∧ decode (0x9#4 ++ 0#12 ++ n) = some (.recv n))

/-- R65 without its [derived] clause, which DecodeOfEncode states: decoding of a word given by its three fields, case by
case; a word that decodes to nothing leads to the illegal-request fault. -/
def Obligations.DecodeReadsTheFields : Prop :=
  (∀ (op : BitVec 4) (rsv : BitVec 12) (arg : Half), rsv ≠ 0#12 → decode (op ++ rsv ++ arg) = none)
  ∧ (∀ arg : Half,
      decode (0x1#4 ++ 0#12 ++ arg) = some (.configure arg)
      ∧ (decode (0x2#4 ++ 0#12 ++ arg) = if arg = 0#16 then some .start else none)
      ∧ (decode (0x3#4 ++ 0#12 ++ arg) = if arg = 0#16 then some .stop else none)
      ∧ (decode (0x4#4 ++ 0#12 ++ arg)
          = if arg.extractLsb' 8 8 = 0#8 then some (.byteOut (arg.extractLsb' 0 8)) else none)
      ∧ (decode (0x5#4 ++ 0#12 ++ arg) = if arg = 0#16 then some .ackRelease else none)
      ∧ decode (0x6#4 ++ 0#12 ++ arg) = some (.read arg)
      ∧ (decode (0x7#4 ++ 0#12 ++ arg) = if arg = 0#16 then some .flush else none)
      ∧ (decode (0x8#4 ++ 0#12 ++ arg) = if arg = 0#16 then some .recvAck else none)
      ∧ decode (0x9#4 ++ 0#12 ++ arg) = some (.recv arg))
  ∧ (∀ (op : BitVec 4) (arg : Half), op = 0#4 ∨ 0xA#4 ≤ op → decode (op ++ 0#12 ++ arg) = none)
  ∧ (∀ (w : Word) (s : State), decode w = none → s.fault = none → performWord w s = .next (raise .illegalRequest w s))

/-- The decoder accepts a word exactly when a row of spec/opcode_table.json matches it, and no word matches two rows. -/
def Obligations.DecodeMatchesOpcodeTable : Prop :=
  (∀ w : Word, (decode w).isSome = true ↔ ∃ r ∈ opcodeTable, r.matchesWord w = true)
  ∧ (∀ (w : Word) (r q : OpcodeRow), r ∈ opcodeTable → q ∈ opcodeTable → r.matchesWord w = true →
      q.matchesWord w = true → r = q)

/-- Words written out from R61 and R62 (spec/95_test_vectors.md L2.1), one or more for each family. -/
def Obligations.SampleWordsDecode : Prop :=
  decode 0x1000012B#32 = some (.configure 299#16) ∧ decode 0x20000000#32 = some .start
  ∧ decode 0x30000000#32 = some .stop ∧ decode 0x400000A0#32 = some (.byteOut 0xA0#8)
  ∧ decode 0x50000000#32 = some .ackRelease ∧ decode 0x60000001#32 = some (.read 1#16)
  ∧ decode 0x70000000#32 = some .flush ∧ decode 0x80000000#32 = some .recvAck
  ∧ decode 0x9000FFFF#32 = some (.recv 65535#16) ∧ decode 0x1001012B#32 = none
  ∧ decode 0x4000FFA0#32 = none ∧ decode 0xA0000000#32 = none

/-- R71: the address byte of a 7-bit address, the mask above it, and the source's example. -/
def Obligations.AddressByteFormula : Prop :=
  (∀ (dev : Nat) (rw : Bool), dev ≤ 0x7F → (addressByte dev rw).toNat = 2 * dev + rw.toNat)
  ∧ (∀ (dev : Nat) (rw : Bool), (addressByte dev rw).toNat = (2 * dev + rw.toNat) % 256)
  ∧ addressByte 0x50 false = 0xA0#8 ∧ addressByte 0x50 true = 0xA1#8

/-- R68, with log 18 (DESIGN CHOICE): the assembler accepts exactly the operands the word can carry, and none on an operand-less mnemonic. -/
def Obligations.AssemblerOperandRanges : Prop :=
  ∀ n : Nat,
    (requestOf "CONFIGURE".toList (some n) = if n ≤ 65535 then some (.configure (BitVec.ofNat 16 n)) else none)
    ∧ (requestOf "BYTE_OUT".toList (some n) = if n ≤ 255 then some (.byteOut (BitVec.ofNat 8 n)) else none)
    ∧ (requestOf "READ".toList (some n) = if n ≤ 65535 then some (.read (BitVec.ofNat 16 n)) else none)
    ∧ (requestOf "RECV".toList (some n) = if n ≤ 65535 then some (.recv (BitVec.ofNat 16 n)) else none)
    ∧ (∀ m ∈ ["START", "STOP", "ACK_RELEASE", "FLUSH", "RECV_ACK"],
        requestOf m.toList (some n) = none ∧ (requestOf m.toList none).isSome = true)

/-- The codes of the spec's tables: faults (spec/60_exceptions.md R110), phases (spec/10_state.md R31), result kinds
(R66). -/
def Obligations.CodesOfTheTables : Prop :=
  [FaultCode.illegalRequest, .ackReleaseOmitted, .handshakeOrder, .readLengthUnsupported, .divisorUnset, .loopCountZero,
    .mixedResponse, .recvSizeMismatch, .bufferOverflow].map FaultCode.code = [1, 2, 3, 4, 5, 6, 7, 8, 9]
  ∧ faultNumber none = 0
  ∧ [Phase.open_, .ackQueued, .ackInFlight, .releaseDue, .dataInFlight].map Phase.code = [0, 1, 2, 3, 4]
  ∧ (∀ (k : Nat) (d a : Bool) (bs : Bytes) (e : ErrorInfo) (c : FaultCode),
      [Result.ok, .sent k, .ack d a, .data bs, .transportError e, .fault c].map Result.kindCode = [0, 1, 2, 3, 4, 5])

/-! ### The step, reset, the invariant -/

/-- spec/60_exceptions.md R111, R122, spec/20_memory.md R40, with the inputs of log 3 (DESIGN CHOICE): a step performs the request presented next, completely; an
illegal word is performed as one; a reset starts a session; with nothing presented the block holds its state. -/
def Obligations.StepRunsTheNextInput : Prop :=
  (∀ (s : State) (w : Word) (rest : List Input) (i : Instr), s.inputs = .request w :: rest → decode w = some i →
    step s = exec i { s with inputs := rest })
  ∧ (∀ (s : State) (w : Word) (rest : List Input), s.inputs = .request w :: rest → decode w = none →
    step s = .next (performIllegal w { s with inputs := rest }))
  ∧ (∀ (s : State) (rest : List Input), s.inputs = .reset :: rest →
    step s = .next (resetSession { s with inputs := rest }))
  ∧ (∀ s : State, s.inputs = [] → step s = .next s)
  ∧ (∀ (s : State) (w : Nat), w < 2 ^ 32 →
    step (s.withFetchWord 32 w) = performWord (BitVec.ofNat 32 w) s)

/-- spec/70_reset_and_hazards.md R123: the reset input, whatever the state, FAULT set or not: every state element takes
its reset value. -/
def Obligations.ResetRestoresTheSession : Prop :=
  ∀ (s : State) (rest : List Input), s.inputs = .reset :: rest →
    ∃ t, step s = .next t ∧ t.div = none ∧ t.cur = 0 ∧ (∀ a, t.buf.read a = none) ∧ t.phase = .open_ ∧ t.dataOwed = 0
      ∧ t.rxOwed = 0 ∧ t.fault = none ∧ t.faultReq = none ∧ t.hist = []

/-- spec/70_reset_and_hazards.md R124 and log 17 (DESIGN CHOICE): a reset makes no transport call, so every answer the
transport has yet to give, late bytes among them, stays; LITS stays. -/
def Obligations.ResetKeepsTheEnvironment : Prop :=
  ∀ (s t : State) (rest : List Input), s.inputs = .reset :: rest → step s = .next t →
    t.inputs = rest ∧ t.txAnswers = s.txAnswers ∧ t.rxAnswers = s.rxAnswers ∧ t.draws = s.draws ∧ t.lits = s.lits

/-- spec/10_state.md R37: the reset values, for an instance with any LITS. -/
def Obligations.ResetValues : Prop :=
  ∀ l : AdmittedLits,
    (State.resetOf l).div = none ∧ (∀ a, (State.resetOf l).buf.read a = none) ∧ (State.resetOf l).cur = 0
    ∧ (State.resetOf l).phase = .open_ ∧ (State.resetOf l).dataOwed = 0 ∧ (State.resetOf l).rxOwed = 0
    ∧ (State.resetOf l).fault = none ∧ (State.resetOf l).faultReq = none ∧ (State.resetOf l).hist = []

/-- spec/10_state.md R32: the invariant holds at reset, whatever the LITS; and State.reset is that state at REF (log 2,
PRESUMED). -/
def Obligations.ResetMeetsInvariant : Prop :=
  BlockInv State.reset ∧ (∀ l, BlockInv (State.resetOf l)) ∧ State.reset = State.resetOf reference

/-- spec/10_state.md R32: every step, of a request, a reset or none, keeps the invariant, for every LITS and every answer
of the transport. -/
def Obligations.StepKeepsInvariant : Prop := ∀ s t : State, BlockInv s → step s = .next t → BlockInv t

/-- No run from a state with the invariant stops, however many steps and whatever is presented and answered: every
request has an effect (spec/60_exceptions.md R111; spec/20_memory.md R54). -/
def Obligations.EveryRunGoesOn : Prop :=
  ∀ (k : Nat) (s : State), BlockInv s → ∃ t, core.run k s = .next t ∧ BlockInv t

/-- R36: no step changes LITS. -/
def Obligations.ParameterStays : Prop := ∀ s t : State, step s = .next t → t.lits = s.lits

/-! ### Faults -/

/-- spec/60_exceptions.md R113: a request that faults writes FAULT, FAULT_REQ (its own word) and the result port, and
nothing else. -/
def Obligations.FaultEntryIsPrecise : Prop :=
  ∀ (w : Word) (s t : State) (c : FaultCode), s.fault = none → performWord w s = .next t → t.fault = some c →
    t.faultReq = some w ∧ t.result = some (.fault c)
    ∧ t.div = s.div ∧ t.buf = s.buf ∧ t.cur = s.cur ∧ t.phase = s.phase ∧ t.dataOwed = s.dataOwed ∧ t.rxOwed = s.rxOwed
    ∧ t.hist = s.hist ∧ SameEnvironment s t

/-- spec/60_exceptions.md R114, R124: while FAULT is set, every request word, legal or not, returns it and changes
nothing, through any number of requests, and the reset after them clears it. -/
def Obligations.FaultsAreSticky : Prop :=
  (∀ (w : Word) (s : State) (c : FaultCode), s.fault = some c →
    ∃ t, performWord w s = .next t ∧ t.result = some (.fault c) ∧ SameSession s t ∧ SameEnvironment s t)
  ∧ (∀ (ws : List Word) (rest : List Input) (s : State) (c : FaultCode), s.fault = some c →
      s.inputs = ws.map Input.request ++ rest →
      ∃ t, core.run ws.length s = .next t ∧ SameSession s t ∧ t.inputs = rest ∧ t.txAnswers = s.txAnswers
        ∧ t.rxAnswers = s.rxAnswers ∧ (ws ≠ [] → t.result = some (.fault c)))
  ∧ (∀ (ws : List Word) (rest : List Input) (s : State) (c : FaultCode), s.fault = some c →
      s.inputs = ws.map Input.request ++ .reset :: rest →
      ∃ t, core.run (ws.length + 1) s = .next t ∧ t.fault = none ∧ t.faultReq = none)
  ∧ (∀ (s : State) (c : FaultCode), s.fault = some c → cleanEnd s = false)

/-- spec/60_exceptions.md R112: when a request faults, the code is the lowest of those whose cause applies; it completes
exactly when none does; and a request that faults makes no transport call. -/
def Obligations.LowestFaultCodeWins : Prop :=
  ∀ (w : Word) (s t : State), s.fault = none → performWord w s = .next t →
    (∀ c, t.fault = some c ↔ wordCause w s c ∧ ∀ c' : FaultCode, c'.code < c.code → ¬ wordCause w s c')
    ∧ (t.fault = none ↔ ∀ c, ¬ wordCause w s c)
    ∧ (t.fault ≠ none → t.hist = s.hist ∧ t.txAnswers = s.txAnswers ∧ t.rxAnswers = s.rxAnswers)

/-- spec/70_reset_and_hazards.md R128: the admission matrix, cell by cell, what a request that is not admitted does, and
that an admitted one gets past admission. -/
def Obligations.AdmissionMatrix : Prop :=
  (∀ (i : Instr) (p : Phase), admission i p = matrixCell i p)
  ∧ (∀ (i : Instr) (s : State) (c : FaultCode), s.fault = none → matrixCell i s.phase = some c → Raises i s c)
  ∧ (∀ (i : Instr) (s : State), s.fault = none → s.phase = .releaseDue → i ≠ .ackRelease →
      Raises i s .ackReleaseOmitted)
  ∧ (∀ (i : Instr) (s t : State), s.fault = none → matrixCell i s.phase = none → exec i s = .next t →
      t.fault ≠ some .ackReleaseOmitted ∧ t.fault ≠ some .handshakeOrder)

/-- spec/30_encoding.md R67, result by result, and spec/60_exceptions.md R109: an answer of the transport is never a
fault: a request that reached the transport leaves FAULT and FAULT_REQ alone and its result is no precondition violation;
a result that is a transport error or a NACK comes without a fault. -/
def Obligations.ErrorResultsAreNotFaults : Prop :=
  (∀ info : ErrorInfo, (Result.transportError info).errorClass = .transportError)
  ∧ (Result.ack false false).errorClass = .transportError
  ∧ (Result.ack true false).errorClass = .protocolNack
  ∧ (∀ c : FaultCode, (Result.fault c).errorClass = .preconditionViolation)
  ∧ Result.ok.errorClass = .success ∧ (∀ k : Nat, (Result.sent k).errorClass = .success)
  ∧ (Result.ack true true).errorClass = .success ∧ (∀ bs : Bytes, (Result.data bs).errorClass = .success)
  ∧ (∀ (i : Instr) (s t : State) (r : Result), s.fault = none → exec i s = .next t → t.result = some r →
      (t.hist ≠ s.hist → t.fault = none ∧ t.faultReq = s.faultReq ∧ r.errorClass ≠ .preconditionViolation)
      ∧ (r.errorClass = .transportError ∨ r.errorClass = .protocolNack →
          t.fault = none ∧ t.faultReq = s.faultReq ∧ t.hist ≠ s.hist))

/-- R66: every request returns one result, of the kind and kind code the table gives it: FAULT(code) exactly when FAULT
is set after it, else OK from the encoder operations and CONFIGURE, SENT or TRANSPORT_ERROR from FLUSH, ACK from RECV_ACK,
DATA or TRANSPORT_ERROR from RECV. -/
def Obligations.ResultKinds : Prop :=
  (∀ (i : Instr) (s t : State), exec i s = .next t →
    ∃ r, t.result = some r ∧ (∀ c, t.fault = some c ↔ r = .fault c) ∧ (t.fault ≠ none → r.kindCode = 5)
      ∧ (t.fault = none →
          match i with
          | .configure _ => r = .ok ∧ r.kindCode = 0
          | .start => r = .ok ∧ r.kindCode = 0
          | .stop => r = .ok ∧ r.kindCode = 0
          | .byteOut _ => r = .ok ∧ r.kindCode = 0
          | .ackRelease => r = .ok ∧ r.kindCode = 0
          | .read _ => r = .ok ∧ r.kindCode = 0
          | .flush =>
            (nextTxAnswer s = .ok s.cur ∧ r = .sent s.cur ∧ r.kindCode = 1)
            ∨ (nextTxAnswer s ≠ .ok s.cur ∧ r = .transportError (.flushAnswer (nextTxAnswer s)) ∧ r.kindCode = 4)
          | .recvAck => (∃ d a, r = .ack d a) ∧ r.kindCode = 2
          | .recv n =>
            (∃ bs, nextRxAnswer n.toNat s = .ok bs ∧ bs.length = n.toNat ∧ r = .data bs ∧ r.kindCode = 3)
            ∨ (∃ bs, nextRxAnswer n.toNat s = .ok bs ∧ bs.length < n.toNat ∧ r = .transportError (.received bs)
              ∧ r.kindCode = 4)
            ∨ (nextRxAnswer n.toNat s = .err ∧ r = .transportError (.received []) ∧ r.kindCode = 4)))
  ∧ (∀ (w : Word) (s : State), decode w = none →
      ∃ t c, performWord w s = .next t ∧ t.result = some (.fault c) ∧ t.fault = some c)

/-! ### The command buffer -/

/-- spec/20_memory.md R45: Append writes all of the string or nothing and nothing else; the buffer changes in no other way;
an encoder operation that completes appended its string once, and one that faults appended nothing. -/
def Obligations.AppendIsAllOrNothing : Prop :=
  (∀ (s : State) (bs : Bytes), s.cur + bs.length > Config.cap → append s bs = .error .bufferOverflow)
  ∧ (∀ (s : State) (bs : Bytes), s.cur + bs.length ≤ Config.cap →
      ∃ t, append s bs = .ok t ∧ Appended s t bs ∧ EncoderFrame s t ∧ t.phase = s.phase ∧ t.dataOwed = s.dataOwed
        ∧ t.result = s.result)
  ∧ (∀ (i : Instr) (s t : State), exec i s = .next t →
      t.buf = s.buf ∨ ∃ bs, stringOf s.lits.val s.div i = some bs ∧ Appended s t bs)
  ∧ (∀ (i : Instr) (s t : State) (bs : Bytes), stringOf s.lits.val s.div i = some bs → exec i s = .next t →
      (t.fault = none → Appended s t bs) ∧ (t.fault ≠ none → t.buf = s.buf ∧ t.cur = s.cur))

/-- spec/20_memory.md R39, R44: the unit a FLUSH would send grows by exactly the appended string, at its end. -/
def Obligations.AppendExtendsUnit : Prop :=
  ∀ (s t : State) (bs : Bytes), append s bs = .ok t → unitOf t = unitOf s ++ bs

/-- spec/20_memory.md R41, R47, spec/10_state.md R33: the bytes sent so far followed by the bytes of the buffer grow by
exactly what a request appends; a FLUSH moves bytes and loses, repeats or reorders none. -/
def Obligations.NoByteIsLost : Prop :=
  ∀ (i : Instr) (s t : State), BlockInv s → exec i s = .next t →
    (t.fault = none → s.fault = none →
      sentBytes t.hist ++ unitOf t = sentBytes s.hist ++ unitOf s ++ (stringOf s.lits.val s.div i).getD [])
    ∧ (t.fault ≠ none → sentBytes t.hist ++ unitOf t = sentBytes s.hist ++ unitOf s)

/-- Over a run of requests from any state with the invariant, the byte stream only grows at its end
(spec/20_memory.md R41, R55). -/
def Obligations.ByteStreamOnlyGrows : Prop :=
  ∀ (k : Nat) (s t : State), BlockInv s → (∀ x ∈ s.inputs, x ≠ .reset) → core.run k s = .next t →
    (sentBytes s.hist ++ unitOf s) <+: (sentBytes t.hist ++ unitOf t) ∧ s.hist <+: t.hist

/-- R87: what an encoder operation appends depends only on LITS, its operand and, for READ alone, DIV: two states that
differ in all else get the same string. -/
def Obligations.EncoderIsStateless : Prop :=
  ∀ (i : Instr) (s s' t t' : State), s.lits = s'.lits → ((∃ n, i = .read n) → s.div = s'.div) →
    (stringOf s.lits.val s.div i).isSome = true →
    exec i s = .next t → exec i s' = .next t' → t.fault = none → t'.fault = none →
    ∃ bs, unitOf t = unitOf s ++ bs ∧ unitOf t' = unitOf s' ++ bs

/-! ### The bus primitives -/

/-- R93, whole: START. -/
def Obligations.StartAppendsStartSequence : Prop :=
  encode .start = 0x20000000#32
  ∧ (∀ s : State, s.fault = none → s.phase = .open_ →
      (s.cur + s.lits.val.startSeq.length ≤ Config.cap →
        ∃ t, exec .start s = .next t ∧ t.result = some .ok ∧ Appended s t s.lits.val.startSeq ∧ EncoderFrame s t
          ∧ t.phase = .open_ ∧ t.dataOwed = s.dataOwed)
      ∧ (s.cur + s.lits.val.startSeq.length > Config.cap → Raises .start s .bufferOverflow))
  ∧ (∀ s : State, s.fault = none → s.phase = .releaseDue → Raises .start s .ackReleaseOmitted)
  ∧ (∀ s : State, s.fault = none → s.phase = .ackQueued ∨ s.phase = .ackInFlight ∨ s.phase = .dataInFlight →
      Raises .start s .handshakeOrder)
  ∧ (∀ (w : Word) (s : State), s.fault = none → opField w = 0x2#4 → (argField w ≠ 0#16 ∨ rsvField w ≠ 0#12) →
      performWord w s = .next (raise .illegalRequest w s))
  ∧ (∀ s : State, s.lits = reference → (s.cur + s.lits.val.startSeq.length > Config.cap ↔ s.cur > 997))
  ∧ (∃ t, exec .start (State.resetOf reference) = .next t ∧ t.cur = 27 ∧ t.result = some .ok
      ∧ unitOf t = rep 4 [0x80#8, 0x03#8, 0x13#8] ++ rep 4 [0x80#8, 0x01#8, 0x13#8] ++ [0x80#8, 0x00#8, 0x13#8])

/-- R95, whole: STOP. -/
def Obligations.StopAppendsStopSequence : Prop :=
  encode .stop = 0x30000000#32
  ∧ (∀ s : State, s.fault = none → s.phase = .open_ →
      (s.cur + s.lits.val.stopSeq.length ≤ Config.cap →
        ∃ t, exec .stop s = .next t ∧ t.result = some .ok ∧ Appended s t s.lits.val.stopSeq ∧ EncoderFrame s t
          ∧ t.phase = .open_ ∧ t.dataOwed = s.dataOwed)
      ∧ (s.cur + s.lits.val.stopSeq.length > Config.cap → Raises .stop s .bufferOverflow))
  ∧ (∀ s : State, s.fault = none → s.phase = .releaseDue → Raises .stop s .ackReleaseOmitted)
  ∧ (∀ s : State, s.fault = none → s.phase = .ackQueued ∨ s.phase = .ackInFlight ∨ s.phase = .dataInFlight →
      Raises .stop s .handshakeOrder)
  ∧ (∀ (w : Word) (s : State), s.fault = none → opField w = 0x3#4 → (argField w ≠ 0#16 ∨ rsvField w ≠ 0#12) →
      performWord w s = .next (raise .illegalRequest w s))
  ∧ (∀ s : State, s.lits.val.stopSeq.getLast? ≠ s.lits.val.startSeq.getLast?)
  ∧ (∀ s : State, s.lits = reference → (s.cur + s.lits.val.stopSeq.length > Config.cap ↔ s.cur > 997))
  ∧ (∃ t, exec .stop (State.resetOf reference) = .next t ∧ t.cur = 27 ∧ t.result = some .ok
      ∧ unitOf t = rep 4 [0x80#8, 0x01#8, 0x13#8] ++ rep 4 [0x80#8, 0x03#8, 0x13#8] ++ [0x80#8, 0x00#8, 0x10#8])

/-- R96, whole: BYTE_OUT, with every byte b ordinary data. -/
def Obligations.ByteOutAppendsTheByte : Prop :=
  (∀ b : Byte, encode (.byteOut b) = 0x40000000#32 ||| b.setWidth 32)
  ∧ (∀ (b : Byte) (s : State), s.fault = none → s.phase = .open_ →
      (s.dataOwed = 0 → s.cur + (s.lits.val.boHead.length + 1 + s.lits.val.boTail.length) ≤ Config.cap →
        ∃ t, exec (.byteOut b) s = .next t ∧ t.result = some .ok
          ∧ Appended s t (s.lits.val.boHead ++ [b] ++ s.lits.val.boTail) ∧ EncoderFrame s t
          ∧ t.phase = .ackQueued ∧ t.dataOwed = s.dataOwed)
      ∧ (s.dataOwed > 0 → Raises (.byteOut b) s .mixedResponse)
      ∧ (s.dataOwed = 0 → s.cur + (s.lits.val.boHead.length + 1 + s.lits.val.boTail.length) > Config.cap →
        Raises (.byteOut b) s .bufferOverflow))
  ∧ (∀ (b : Byte) (s : State), s.fault = none → s.phase = .releaseDue → Raises (.byteOut b) s .ackReleaseOmitted)
  ∧ (∀ (b : Byte) (s : State), s.fault = none →
      s.phase = .ackQueued ∨ s.phase = .ackInFlight ∨ s.phase = .dataInFlight → Raises (.byteOut b) s .handshakeOrder)
  ∧ (∀ (w : Word) (s : State), s.fault = none → opField w = 0x4#4 →
      ((argField w).extractLsb' 8 8 ≠ 0#8 ∨ rsvField w ≠ 0#12) → performWord w s = .next (raise .illegalRequest w s))
  ∧ (∀ (i : Instr) (s t : State), s.fault = none → s.phase = .ackQueued → exec i s = .next t → t.fault = none →
      i = .flush)
  ∧ (∀ (i : Instr) (s t : State), s.phase = .open_ → exec i s = .next t → t.phase ≠ .open_ →
      i = .flush ∨ ∃ b, i = .byteOut b)
  ∧ (∀ s : State, s.lits = reference →
      (s.cur + (s.lits.val.boHead.length + 1 + s.lits.val.boTail.length) > Config.cap ↔ s.cur > 1014))
  ∧ (∃ t, exec (.byteOut 0xA0#8) (State.resetOf reference) = .next t ∧ t.cur = 10 ∧ t.phase = .ackQueued
      ∧ t.result = some .ok
      ∧ unitOf t = [0x11#8, 0x00#8, 0x00#8, 0xA0#8, 0x80#8, 0x00#8, 0x11#8, 0x22#8, 0x00#8, 0x87#8])

/-- R98, whole: ACK_RELEASE, in RELEASE_DUE and in OPEN alike, after an ACK and after a NACK. -/
def Obligations.AckReleaseAppendsRelease : Prop :=
  encode .ackRelease = 0x50000000#32
  ∧ (∀ s : State, s.fault = none → s.phase = .releaseDue ∨ s.phase = .open_ →
      (s.cur + s.lits.val.ackReleaseSeq.length ≤ Config.cap →
        ∃ t, exec .ackRelease s = .next t ∧ t.result = some .ok ∧ Appended s t s.lits.val.ackReleaseSeq
          ∧ EncoderFrame s t ∧ t.phase = .open_ ∧ t.dataOwed = s.dataOwed)
      ∧ (s.cur + s.lits.val.ackReleaseSeq.length > Config.cap → Raises .ackRelease s .bufferOverflow))
  ∧ (∀ s : State, s.fault = none → s.phase = .ackQueued ∨ s.phase = .ackInFlight ∨ s.phase = .dataInFlight →
      Raises .ackRelease s .handshakeOrder)
  ∧ (∀ (w : Word) (s : State), s.fault = none → opField w = 0x5#4 → (argField w ≠ 0#16 ∨ rsvField w ≠ 0#12) →
      performWord w s = .next (raise .illegalRequest w s))
  ∧ (∀ s : State, BlockInv s → s.phase = .releaseDue → s.cur = 0)
  ∧ (∀ (s : State) (h : Byte), s.fault = none → s.phase = .ackInFlight → nextRxAnswer 1 s = .ok [h] →
      ∃ t, exec .recvAck s = .next t ∧ t.phase = .releaseDue)
  ∧ (∀ s : State, s.lits = reference → (s.cur + s.lits.val.ackReleaseSeq.length > Config.cap ↔ s.cur > 1021))
  ∧ (∃ t, exec .ackRelease { State.resetOf reference with phase := .releaseDue } = .next t ∧ t.cur = 3
      ∧ t.phase = .open_ ∧ t.result = some .ok ∧ unitOf t = [0x80#8, 0x02#8, 0x13#8])

/-- R99, whole: READ; its checks in order, the string sized by the divisor held when READ is performed, the debt. -/
def Obligations.ReadAppendsReadSequence : Prop :=
  (∀ n : Half, encode (.read n) = 0x60000000#32 ||| n.setWidth 32)
  ∧ (∀ (n d : Half) (s : State), s.fault = none → s.phase = .open_ → n = 1#16 → s.div = some d → loopCount d ≠ 0 →
      (s.cur + (rdSeq s.lits.val (loopCount d)).length ≤ Config.cap →
        ∃ t, exec (.read n) s = .next t ∧ t.result = some .ok ∧ Appended s t (rdSeq s.lits.val (loopCount d))
          ∧ EncoderFrame s t ∧ t.phase = .open_ ∧ t.dataOwed = s.dataOwed + 1)
      ∧ (s.cur + (rdSeq s.lits.val (loopCount d)).length > Config.cap → Raises (.read n) s .bufferOverflow))
  ∧ (∀ (n : Half) (s : State), s.fault = none → s.phase = .open_ →
      (n ≠ 1#16 → Raises (.read n) s .readLengthUnsupported)
      ∧ (n = 1#16 → s.div = none → Raises (.read n) s .divisorUnset)
      ∧ (∀ d, n = 1#16 → s.div = some d → d.toNat ≤ 6 → Raises (.read n) s .loopCountZero))
  ∧ (∀ d : Half, loopCount d = 0 ↔ d.toNat ≤ 6)
  ∧ (∀ (n : Half) (s : State), s.fault = none → s.phase = .releaseDue → Raises (.read n) s .ackReleaseOmitted)
  ∧ (∀ (n : Half) (s : State), s.fault = none →
      s.phase = .ackQueued ∨ s.phase = .ackInFlight ∨ s.phase = .dataInFlight → Raises (.read n) s .handshakeOrder)
  ∧ (∀ (w : Word) (s : State), s.fault = none → opField w = 0x6#4 → rsvField w ≠ 0#12 →
      performWord w s = .next (raise .illegalRequest w s))
  ∧ (∀ (d : Half) (s t : State), exec (.configure d) s = .next t → unitOf t = unitOf s)
  ∧ (∀ (d : Half) (s : State), s.lits = reference → s.cur = 0 →
      (s.cur + (rdSeq s.lits.val (loopCount d)).length > Config.cap ↔ d.toNat ≥ 1702))
  ∧ (∃ t, exec (.read 1#16) { State.resetOf reference with div := some 299#16 } = .next t ∧ t.dataOwed = 1
      ∧ t.cur = 183 ∧ t.result = some .ok
      ∧ unitOf t = [0x24#8, 0x00#8, 0x00#8] ++ rep 20 [0x80#8, 0x02#8, 0x13#8] ++ rep 20 [0x80#8, 0x03#8, 0x13#8]
          ++ rep 20 [0x80#8, 0x02#8, 0x13#8])

/-! ### The loop count -/

/-- R89, with R88's formula over exact rationals: the closed form, and that a tie never occurs. -/
def Obligations.LoopCountClosedForm : Prop :=
  (∀ d : Half, loopCountFormula d.toNat = (loopCount d : ℤ))
  ∧ (∀ d : Nat, (Config.loopScale : ℚ) * (Config.loopRefKhz : ℚ) / clockKhz d = (1 + (d : ℚ)) / 15)
  ∧ (∀ d k : Nat, 2 * (1 + d) ≠ 15 * (2 * k + 1))

/-- R90: the loop count's range and monotonicity, and what READ does with the divisors that give 0. -/
def Obligations.LoopCountRange : Prop :=
  (∀ d : Half, d.toNat ≤ 6 → loopCount d = 0)
  ∧ (∀ d : Half, 7 ≤ d.toNat → 1 ≤ loopCount d)
  ∧ loopCount 65535#16 = 4369 ∧ (∀ d : Half, loopCount d ≤ 4369)
  ∧ (∀ d e : Half, d.toNat ≤ e.toNat → loopCount d ≤ loopCount e)
  ∧ (∀ (d : Half) (s : State), s.fault = none → s.phase = .open_ → s.div = some d → d.toNat ≤ 6 →
      Raises (.read 1#16) s .loopCountZero)

/-- R92: the read sequence and its length, for every LITS and under REF. -/
def Obligations.ReadSequenceLength : Prop :=
  (∀ (l : Lits) (L : Nat), rdSeq l L = l.rdHead ++ rep L l.rdG0 ++ rep L l.rdG1 ++ rep L l.rdG2)
  ∧ (∀ (l : Lits) (L : Nat),
      (rdSeq l L).length = l.rdHead.length + L * (l.rdG0.length + l.rdG1.length + l.rdG2.length))
  ∧ (∀ L : Nat, (rdSeq reference.val L).length = 3 + 9 * L)

/-- R100, a statement about REF: which divisors let a READ fit. -/
def Obligations.ReadCapacityUnderRef : Prop :=
  (∀ d : Half, (rdSeq reference.val (loopCount d)).length = 3 + 9 * loopCount d)
  ∧ (∀ d : Half, (3 + 9 * loopCount d ≤ Config.cap ↔ loopCount d ≤ 113)
      ∧ (loopCount d ≤ 113 ↔ d.toNat ≤ 1701))
  ∧ (∀ (d : Half) (s : State), s.lits = reference → s.fault = none → s.phase = .open_ → s.div = some d →
      (1702 ≤ d.toNat → Raises (.read 1#16) s .bufferOverflow)
      ∧ (7 ≤ d.toNat → d.toNat ≤ 1701 → s.cur + 3 + 9 * loopCount d ≤ Config.cap →
          ∃ t, exec (.read 1#16) s = .next t ∧ t.result = some .ok))

/-! ### Session and transport requests -/

/-- R103, whole: CONFIGURE; every d is latched, a later one overwrites, the buffer is untouched. -/
def Obligations.ConfigureLatchesTheDivisor : Prop :=
  (∀ d : Half, encode (.configure d) = 0x10000000#32 ||| d.setWidth 32)
  ∧ (∀ (d : Half) (s : State), s.fault = none → s.phase = .open_ →
      ∃ t, exec (.configure d) s = .next t ∧ t.div = some d ∧ t.result = some .ok ∧ t.cur = s.cur
        ∧ (∀ a, t.buf.read a = s.buf.read a) ∧ t.phase = s.phase ∧ t.dataOwed = s.dataOwed ∧ t.rxOwed = s.rxOwed
        ∧ t.fault = s.fault ∧ t.faultReq = s.faultReq ∧ t.hist = s.hist ∧ SameEnvironment s t)
  ∧ (∀ (d : Half) (s : State), s.fault = none → s.phase = .releaseDue → Raises (.configure d) s .ackReleaseOmitted)
  ∧ (∀ (d : Half) (s : State), s.fault = none →
      s.phase = .ackQueued ∨ s.phase = .ackInFlight ∨ s.phase = .dataInFlight →
      Raises (.configure d) s .handshakeOrder)
  ∧ (∀ (w : Word) (s : State), s.fault = none → opField w = 0x1#4 → rsvField w ≠ 0#12 →
      performWord w s = .next (raise .illegalRequest w s))
  ∧ (∀ (d n : Half) (s t : State), d.toNat ≤ 6 → s.div = some d → exec (.read n) s = .next t →
      loopCount d = 0 ∧ t.fault ≠ none)
  ∧ (∀ l, ∃ t, exec (.configure 0x012B#16) (State.resetOf l) = .next t ∧ t.div = some 299#16)
  ∧ encode (.configure 299#16) = 0x1000012B#32 ∧ loopCount 299#16 = 20

/-- R105, whole: FLUSH, for every answer the transport may give (the coming ones, or the free value), wherever CUR is in
its range (spec/10_state.md R23). -/
def Obligations.FlushSendsTheUnit : Prop :=
  encode .flush = 0x70000000#32
  ∧ (∀ s : State, s.fault = none → s.phase = .open_ ∨ s.phase = .ackQueued → s.cur ≤ Config.cap →
      ∃ t ans, exec .flush s = .next t ∧ ans = nextTxAnswer s
        ∧ t.hist = s.hist ++ [.flush (unitOf s) ans] ∧ (unitOf s).length = s.cur
        ∧ (∀ a b, a < s.cur → s.buf.read a = some b → (unitOf s)[a]? = some b) ∧ t.cur = 0
        ∧ (s.phase = .ackQueued → t.phase = .ackInFlight ∧ t.rxOwed = 1 ∧ t.dataOwed = s.dataOwed)
        ∧ (s.phase = .open_ → 0 < s.dataOwed →
            t.phase = .dataInFlight ∧ t.rxOwed = s.dataOwed ∧ t.dataOwed = 0)
        ∧ (s.phase = .open_ → s.dataOwed = 0 → t.phase = .open_ ∧ t.rxOwed = s.rxOwed ∧ t.dataOwed = 0)
        ∧ (ans = .ok s.cur → t.result = some (.sent s.cur))
        ∧ (ans ≠ .ok s.cur → t.result = some (.transportError (.flushAnswer ans)))
        ∧ TransportFrame s t)
  ∧ (∀ s : State, s.fault = none → s.phase = .releaseDue → Raises .flush s .ackReleaseOmitted)
  ∧ (∀ s : State, s.fault = none → s.phase = .ackInFlight ∨ s.phase = .dataInFlight → Raises .flush s .handshakeOrder)
  ∧ (∀ (w : Word) (s : State), s.fault = none → opField w = 0x7#4 → (argField w ≠ 0#16 ∨ rsvField w ≠ 0#12) →
      performWord w s = .next (raise .illegalRequest w s))
  ∧ (∀ s : State, BlockInv s → s.phase = .ackQueued → s.dataOwed = 0)

/-- The model's only stop (log 9, DESIGN CHOICE, no rule of the spec): a FLUSH whose CUR is outside its range faults, no
other request ever faults in this sense, and none is refused. -/
def Obligations.OnlyFlushOutsideRangeStops : Prop :=
  (∀ s : State, s.fault = none → s.phase = .open_ ∨ s.phase = .ackQueued → Config.cap < s.cur →
    exec .flush s = .fault (.addressOutsideBuffer 1024))
  ∧ (∀ (i : Instr) (s : State) (r : Fault), exec i s = .fault r → i = .flush ∧ Config.cap < s.cur)
  ∧ (∀ (i : Instr) (s : State) (r : Refusal), exec i s ≠ .refused r)

/-- R106, whole: RECV_ACK, for every answer the transport may give. -/
def Obligations.RecvAckDecodesTheHandshake : Prop :=
  encode .recvAck = 0x80000000#32
  ∧ (∀ s : State, s.fault = none → s.phase = .ackInFlight →
      ∃ t ans, exec .recvAck s = .next t ∧ ans = nextRxAnswer 1 s ∧ t.hist = s.hist ++ [.recv 1 ans] ∧ t.rxOwed = 0
        ∧ (∀ h, ans = .ok [h] → t.phase = .releaseDue ∧ t.result = some (.ack true (!h.getLsbD 0)))
        ∧ (ans = .ok [] ∨ ans = .err → t.phase = .open_ ∧ t.result = some (.ack false false))
        ∧ ((∃ h, ans = .ok [h]) ∨ ans = .ok [] ∨ ans = .err)
        ∧ t.cur = s.cur ∧ t.dataOwed = s.dataOwed ∧ TransportFrame s t)
  ∧ (∀ s : State, s.fault = none → s.phase = .releaseDue → Raises .recvAck s .ackReleaseOmitted)
  ∧ (∀ s : State, s.fault = none → s.phase = .open_ ∨ s.phase = .ackQueued ∨ s.phase = .dataInFlight →
      Raises .recvAck s .handshakeOrder)
  ∧ (∀ (w : Word) (s : State), s.fault = none → opField w = 0x8#4 → (argField w ≠ 0#16 ∨ rsvField w ≠ 0#12) →
      performWord w s = .next (raise .illegalRequest w s))

/-- R108, whole: RECV, for every answer the transport may give. -/
def Obligations.RecvReturnsTheData : Prop :=
  (∀ n : Half, encode (.recv n) = 0x90000000#32 ||| n.setWidth 32)
  ∧ (∀ (n : Half) (s : State), s.fault = none → s.phase = .dataInFlight →
      (n.toNat = s.rxOwed →
        ∃ t ans, exec (.recv n) s = .next t ∧ ans = nextRxAnswer n.toNat s ∧ t.hist = s.hist ++ [.recv n.toNat ans]
          ∧ t.rxOwed = 0 ∧ t.phase = .open_
          ∧ (∀ bs, ans = .ok bs → bs.length = n.toNat → t.result = some (.data bs))
          ∧ (∀ bs, ans = .ok bs → bs.length ≠ n.toNat →
              bs.length < n.toNat ∧ t.result = some (.transportError (.received bs)))
          ∧ (ans = .err → t.result = some (.transportError (.received [])))
          ∧ t.cur = s.cur ∧ t.dataOwed = s.dataOwed ∧ TransportFrame s t)
      ∧ (n.toNat ≠ s.rxOwed → Raises (.recv n) s .recvSizeMismatch))
  ∧ (∀ (n : Half) (s : State), s.fault = none → s.phase = .releaseDue → Raises (.recv n) s .ackReleaseOmitted)
  ∧ (∀ (n : Half) (s : State), s.fault = none → s.phase = .open_ ∨ s.phase = .ackQueued ∨ s.phase = .ackInFlight →
      Raises (.recv n) s .handshakeOrder)
  ∧ (∀ (w : Word) (s : State), s.fault = none → opField w = 0x9#4 → rsvField w ≠ 0#12 →
      performWord w s = .next (raise .illegalRequest w s))

/-- R84: only bit 0 of the handshake byte counts. -/
def Obligations.HandshakeReadsBitZero : Prop :=
  ∀ h g : Byte, h.getLsbD 0 = g.getLsbD 0 →
    ackResult (.ok [h]) = ackResult (.ok [g])
    ∧ (h.getLsbD 0 = false → ackResult (.ok [h]) = .ack true true)
    ∧ (h.getLsbD 0 = true → ackResult (.ok [h]) = .ack true false)

/-- spec/20_memory.md R53, with the queues of log 4 and the cut of log 5 (DESIGN CHOICES): a receive's answer never has
more bytes than were asked for, and every answer R53 allows can come. -/
def Obligations.TransportAnswersAreDraws : Prop :=
  (∀ (n : Nat) (s : State) (bs : Bytes), nextRxAnswer n s = .ok bs → bs.length ≤ n)
  ∧ (∀ (n : Nat) (s : State) (bs : Bytes), bs.length ≤ n →
      nextRxAnswer n { s with rxAnswers := .ok bs :: s.rxAnswers } = .ok bs)
  ∧ (∀ (n : Nat) (s : State), nextRxAnswer n { s with rxAnswers := .err :: s.rxAnswers } = .err)
  ∧ (∀ (a : TxAnswer) (s : State), nextTxAnswer { s with txAnswers := a :: s.txAnswers } = a)

/-- spec/10_state.md R33, spec/41_session_transport.md R102, spec/20_memory.md R54, with the queues of log 4 (DESIGN
CHOICE): FLUSH, RECV_ACK and RECV, where they do not fault, make exactly one transport call, record it and take one coming
answer; no other request makes or records a call or takes an answer. -/
def Obligations.HistoryRecordsEveryCall : Prop :=
  ∀ (i : Instr) (s t : State), exec i s = .next t →
    (t.fault = none →
      match i with
      | .configure _ => t.hist = s.hist
      | .start => t.hist = s.hist
      | .stop => t.hist = s.hist
      | .byteOut _ => t.hist = s.hist
      | .ackRelease => t.hist = s.hist
      | .read _ => t.hist = s.hist
      | .flush =>
        t.hist = s.hist ++ [.flush (unitOf s) (nextTxAnswer s)] ∧ t.txAnswers = s.txAnswers.tail
          ∧ t.rxAnswers = s.rxAnswers
      | .recvAck =>
        t.hist = s.hist ++ [.recv 1 (nextRxAnswer 1 s)] ∧ t.rxAnswers = s.rxAnswers.tail ∧ t.txAnswers = s.txAnswers
      | .recv n =>
        t.hist = s.hist ++ [.recv n.toNat (nextRxAnswer n.toNat s)] ∧ t.rxAnswers = s.rxAnswers.tail
          ∧ t.txAnswers = s.txAnswers)
    ∧ (t.fault ≠ none → t.hist = s.hist)
    ∧ (t.hist = s.hist → t.txAnswers = s.txAnswers ∧ t.rxAnswers = s.rxAnswers)

/-! ### Whole-machine rules -/

/-- spec/10_state.md R31: the only requests that move PHASE, and between which phases. -/
def Obligations.PhaseTransitions : Prop :=
  ∀ (i : Instr) (s t : State), exec i s = .next t → t.phase ≠ s.phase →
    (s.phase = .open_ ∧ t.phase = .ackQueued ∧ ∃ b, i = .byteOut b)
    ∨ (s.phase = .ackQueued ∧ t.phase = .ackInFlight ∧ i = .flush)
    ∨ (s.phase = .open_ ∧ t.phase = .dataInFlight ∧ i = .flush ∧ 0 < s.dataOwed)
    ∨ (s.phase = .ackInFlight ∧ t.phase = .releaseDue ∧ i = .recvAck)
    ∨ (s.phase = .ackInFlight ∧ t.phase = .open_ ∧ i = .recvAck)
    ∨ (s.phase = .releaseDue ∧ t.phase = .open_ ∧ i = .ackRelease)
    ∨ (s.phase = .dataInFlight ∧ t.phase = .open_ ∧ ∃ n, i = .recv n)

/-- The "written by" column of spec/10_state.md R19: no other request changes the element. -/
def Obligations.WrittenOnlyByItsWriters : Prop :=
  ∀ (i : Instr) (s t : State), exec i s = .next t →
    (t.div ≠ s.div → ∃ d, i = .configure d)
    ∧ (t.buf ≠ s.buf → i = .start ∨ i = .stop ∨ (∃ b, i = .byteOut b) ∨ i = .ackRelease ∨ ∃ n, i = .read n)
    ∧ (t.phase ≠ s.phase → (∃ b, i = .byteOut b) ∨ i = .ackRelease ∨ i = .flush ∨ i = .recvAck ∨ ∃ n, i = .recv n)
    ∧ (t.cur ≠ s.cur → i = .start ∨ i = .stop ∨ (∃ b, i = .byteOut b) ∨ i = .ackRelease ∨ (∃ n, i = .read n) ∨ i = .flush)
    ∧ (t.dataOwed ≠ s.dataOwed → (∃ n, i = .read n) ∨ i = .flush)
    ∧ (t.rxOwed ≠ s.rxOwed → i = .flush ∨ i = .recvAck ∨ ∃ n, i = .recv n)
    ∧ (t.hist ≠ s.hist → i = .flush ∨ i = .recvAck ∨ ∃ n, i = .recv n)
    ∧ (t.fault ≠ s.fault → ∃ c, Raises i s c) ∧ (t.faultReq ≠ s.faultReq → ∃ c, Raises i s c)

/-- spec/70_reset_and_hazards.md R137: the clean end, and that in a reachable state nothing is then buffered or owed. -/
def Obligations.CleanEndOwesNothing : Prop :=
  (∀ s : State, cleanEnd s = true ↔ s.fault = none ∧ s.phase = .open_ ∧ s.cur = 0 ∧ s.dataOwed = 0)
  ∧ (∀ s : State, BlockInv s → cleanEnd s = true → unitOf s = [] ∧ s.rxOwed = 0)
  ∧ (∀ (s : State) (c : FaultCode), s.fault = some c → cleanEnd s = false)

/-! ### REF and the caller's sequences -/

/-- R81, R83, spec/70_reset_and_hazards.md R134, statements about REF: it passes LitsWF, its lengths and last bytes, and
the SCL and SDA levels its start, stop and loop-group strings walk through, command by command, under the pin map of
R74. -/
def Obligations.ReferencePassesLitsWF : Prop :=
  litsWF (refLits 0x00#8 0x00#8) = true
  ∧ reference.val.startSeq.length = 27 ∧ reference.val.stopSeq.length = 27
  ∧ (∀ b, (byteOutSeq reference.val b).length = 10) ∧ reference.val.ackReleaseSeq.length = 3
  ∧ reference.val.stopSeq.getLast? = some 0x10#8 ∧ reference.val.startSeq.getLast? = some 0x13#8
  ∧ levelsOf reference.val.startSeq
      = some (List.replicate 4 (some (some true, some true)) ++ List.replicate 4 (some (some true, some false))
          ++ [some (some false, some false)])
  ∧ levelsOf reference.val.stopSeq
      = some (List.replicate 4 (some (some true, some false)) ++ List.replicate 4 (some (some true, some true))
          ++ [some (none, none)])
  ∧ levelsOf (reference.val.rdG0 ++ reference.val.rdG1 ++ reference.val.rdG2)
      = some [some (some false, some true), some (some true, some true), some (some false, some true)]

/-- R69: SEND from OPEN with room for its string: the unit goes out with the byte, and the release follows exactly when a
handshake byte came; SEND's result is RECV_ACK's. -/
def Obligations.SendByteExpansion : Prop :=
  ∀ (b : Byte) (s : State), s.fault = none → s.phase = .open_ → s.dataOwed = 0 →
    s.cur + (byteOutSeq s.lits.val b).length ≤ Config.cap → s.lits.val.ackReleaseSeq.length ≤ Config.cap →
    ∃ t r a h, sendByte b s = .next (t, some r) ∧ t.fault = none ∧ t.phase = .open_ ∧ t.dataOwed = 0 ∧ t.rxOwed = 0
      ∧ r = ackResult h ∧ t.hist = s.hist ++ [.flush (unitOf s ++ byteOutSeq s.lits.val b) a, .recv 1 h]
      ∧ (handshakeSampled h = true → unitOf t = s.lits.val.ackReleaseSeq)
      ∧ (handshakeSampled h = false → r = .ack false false ∧ t.cur = 0)

/-- R70 with spec/95_test_vectors.md L1.5 and P3: when the handshake of the address byte, of the register byte or of the
value byte does not come (no byte, or a failed receive), after any handshakes that came, ACK or NACK, WRITE_REG ends
there with `ACK(false, false)`, nothing buffered, nothing owed, and no STOP: HIST holds exactly the units sent so far. -/
def Obligations.WriteRegEndsUndelivered : Prop :=
  ∀ (dev : Nat) (reg val : Byte) (s : State) (e : RxAnswer) (rest : List RxAnswer),
    s.fault = none → s.phase = .open_ → s.dataOwed = 0 →
    s.cur + (s.lits.val.startSeq.length + (byteOutSeq s.lits.val (addressByte dev false)).length) ≤ Config.cap →
    s.lits.val.ackReleaseSeq.length + (byteOutSeq s.lits.val reg).length ≤ Config.cap →
    s.lits.val.ackReleaseSeq.length + (byteOutSeq s.lits.val val).length ≤ Config.cap →
    e = .ok [] ∨ e = .err →
    (s.rxAnswers = e :: rest →
      ∃ t a, writeReg dev reg val s = .next (t, some (.ack false false)) ∧ NothingPending t
        ∧ t.hist = s.hist ++ [.flush (unitOf s ++ s.lits.val.startSeq ++ byteOutSeq s.lits.val (addressByte dev false)) a,
            .recv 1 e])
    ∧ (∀ h : Byte, s.rxAnswers = .ok [h] :: e :: rest →
      ∃ t a a', writeReg dev reg val s = .next (t, some (.ack false false)) ∧ NothingPending t
        ∧ t.hist = s.hist ++ [.flush (unitOf s ++ s.lits.val.startSeq ++ byteOutSeq s.lits.val (addressByte dev false)) a,
            .recv 1 (.ok [h]), .flush (s.lits.val.ackReleaseSeq ++ byteOutSeq s.lits.val reg) a', .recv 1 e])
    ∧ (∀ h g : Byte, s.rxAnswers = .ok [h] :: .ok [g] :: e :: rest →
      ∃ t a a' a'', writeReg dev reg val s = .next (t, some (.ack false false)) ∧ NothingPending t
        ∧ t.hist = s.hist ++ [.flush (unitOf s ++ s.lits.val.startSeq ++ byteOutSeq s.lits.val (addressByte dev false)) a,
            .recv 1 (.ok [h]), .flush (s.lits.val.ackReleaseSeq ++ byteOutSeq s.lits.val reg) a', .recv 1 (.ok [g]),
            .flush (s.lits.val.ackReleaseSeq ++ byteOutSeq s.lits.val val) a'', .recv 1 e])

/-! ### Response counts -/

/-- spec/30_encoding.md R80 point 7, of the model's LitsWF: for every LITS that passes it, BYTE_OUT's string produces
exactly one response byte whatever the byte, READ's exactly one for every loop count it is emitted with, and those of
START, STOP and ACK_RELEASE none. Responses are counted by R73 to R78 (log 10, PRESUMED) with log 12's reading of other
bytes (DEDUCED). -/
def Obligations.LitsResponseCounts : Prop :=
  ∀ l : AdmittedLits,
    (∀ b : Byte, responseCount (byteOutSeq l.val b) = some 1)
    ∧ (∀ L : Nat, 1 ≤ L → (rdSeq l.val L).length ≤ Config.cap → responseCount (rdSeq l.val L) = some 1)
    ∧ responseCount l.val.startSeq = some 0 ∧ responseCount l.val.stopSeq = some 0
    ∧ responseCount l.val.ackReleaseSeq = some 0

/-- R80 point 7's purpose, "the assumption that makes RX_OWED right": the buffered bytes produce exactly the responses
that DATA_OWED and PHASE count, at reset and after every step, whatever is presented and answered; so the RX_OWED that a
FLUSH leaves is the number of response bytes its unit produces (logs 10 and 12). -/
def Obligations.OwedMatchesTheUnit : Prop :=
  (∀ l, BufferOwes (State.resetOf l))
  ∧ (∀ s t : State, BlockInv s → BufferOwes s → step s = .next t → BufferOwes t)
  ∧ (∀ s t : State, BlockInv s → BufferOwes s → exec .flush s = .next t → t.fault = none →
      responseCount (unitOf s) = some t.rxOwed)

/-! ### Repetitions -/

/-- spec/30_encoding.md R80 point 2 with spec/00_scope.md R8, of the model's LitsWF: for every LITS that passes it, the start
and the stop sequence are line-state commands, and each is a body of exactly four repetitions, then a way to settle. (What
counts as a repetition where the arrangement is free is log 11, DEDUCED.) -/
def Obligations.LitsRepeatsAreExact : Prop :=
  ∀ (l : AdmittedLits) (bs : Bytes), bs = l.val.startSeq ∨ bs = l.val.stopSeq →
    ∃ body settle : List Cmd, cmdsOf bs = some (body ++ settle) ∧ (∀ c ∈ body ++ settle, isSet c = true)
      ∧ RepeatsThenSettles 4 body settle

end
end

