-- ==== Sys2Proof/Laws/Decode.lean ====
section
/-! SUPPORT. A request word is its three fields, op, rsv and arg (spec/30_encoding.md R61). -/

namespace Sys2Proof

@[simp] theorem opField_append (op : BitVec 4) (rsv : BitVec 12) (arg : Half) :
    opField (op ++ rsv ++ arg) = op := by
  refine BitVec.eq_of_getLsbD_eq fun i hi => ?_
  simp only [opField, BitVec.getLsbD_extractLsb', BitVec.getLsbD_append]
  simp [hi, show ¬ (28 + i < 16) by omega, show ¬ (28 + i - 16 < 12) by omega, show 28 + i - 16 - 12 = i by omega]

@[simp] theorem rsvField_append (op : BitVec 4) (rsv : BitVec 12) (arg : Half) :
    rsvField (op ++ rsv ++ arg) = rsv := by
  refine BitVec.eq_of_getLsbD_eq fun i hi => ?_
  simp only [rsvField, BitVec.getLsbD_extractLsb', BitVec.getLsbD_append]
  simp [hi]

@[simp] theorem argField_append (op : BitVec 4) (rsv : BitVec 12) (arg : Half) :
    argField (op ++ rsv ++ arg) = arg := by
  refine BitVec.eq_of_getLsbD_eq fun i hi => ?_
  simp only [argField, BitVec.getLsbD_extractLsb', BitVec.getLsbD_append]
  simp [hi]

/-- A word is put together from its fields. -/
theorem fields_append (w : Word) : opField w ++ rsvField w ++ argField w = w := by
  refine BitVec.eq_of_getLsbD_eq fun i hi => ?_
  simp only [opField, rsvField, argField, BitVec.getLsbD_append, BitVec.getLsbD_extractLsb']
  by_cases h1 : i < 16
  · simp [h1]
  · by_cases h2 : i - 16 < 12
    · simp [h1, h2, show 16 + (i - 16) = i by omega]
    · simp [h1, h2, show i - 16 - 12 < 4 by omega, show 28 + (i - 16 - 12) = i by omega]

/-- Two words with the same fields are the same word. -/
theorem eq_of_fields {w v : Word} (ho : opField w = opField v) (hr : rsvField w = rsvField v)
    (ha : argField w = argField v) : w = v := by
  rw [← fields_append w, ← fields_append v, ho, hr, ha]

/-- An operand whose upper byte is 0 is its lower byte, extended. -/
theorem lowByte_append (arg : Half) (h : arg.extractLsb' 8 8 = 0#8) : 0#8 ++ arg.extractLsb' 0 8 = arg := by
  refine BitVec.eq_of_getLsbD_eq fun i hi => ?_
  simp only [BitVec.getLsbD_append, BitVec.getLsbD_extractLsb']
  by_cases h1 : i < 8
  · simp [h1]
  · have := congrArg (fun v : BitVec 8 => v.getLsbD (i - 8)) h
    simp only [BitVec.getLsbD_extractLsb', show i - 8 < 8 by omega, decide_true, Bool.true_and,
      show 8 + (i - 8) = i by omega] at this
    simp [h1, this]

end Sys2Proof
end

