-- ==== Sys2Proof/Laws/State.lean ====
section
/-! SUPPORT. One lemma per field per update of State, each true by rfl, so that no later proof unfolds a record update. -/

namespace Sys2Proof.Machine

/-! ### `reply` writes the result port only -/

@[simp] theorem reply_div (r : Result) (s : State) : (reply r s).div = s.div := rfl
@[simp] theorem reply_buf (r : Result) (s : State) : (reply r s).buf = s.buf := rfl
@[simp] theorem reply_cur (r : Result) (s : State) : (reply r s).cur = s.cur := rfl
@[simp] theorem reply_phase (r : Result) (s : State) : (reply r s).phase = s.phase := rfl
@[simp] theorem reply_dataOwed (r : Result) (s : State) : (reply r s).dataOwed = s.dataOwed := rfl
@[simp] theorem reply_rxOwed (r : Result) (s : State) : (reply r s).rxOwed = s.rxOwed := rfl
@[simp] theorem reply_fault (r : Result) (s : State) : (reply r s).fault = s.fault := rfl
@[simp] theorem reply_faultReq (r : Result) (s : State) : (reply r s).faultReq = s.faultReq := rfl
@[simp] theorem reply_hist (r : Result) (s : State) : (reply r s).hist = s.hist := rfl
@[simp] theorem reply_result (r : Result) (s : State) : (reply r s).result = some r := rfl
@[simp] theorem reply_inputs (r : Result) (s : State) : (reply r s).inputs = s.inputs := rfl
@[simp] theorem reply_txAnswers (r : Result) (s : State) : (reply r s).txAnswers = s.txAnswers := rfl
@[simp] theorem reply_rxAnswers (r : Result) (s : State) : (reply r s).rxAnswers = s.rxAnswers := rfl
@[simp] theorem reply_draws (r : Result) (s : State) : (reply r s).draws = s.draws := rfl
@[simp] theorem reply_lits (r : Result) (s : State) : (reply r s).lits = s.lits := rfl

/-! ### `raise` writes FAULT, FAULT_REQ and the result port only -/

@[simp] theorem raise_div (c : FaultCode) (w : Word) (s : State) : (raise c w s).div = s.div := rfl
@[simp] theorem raise_buf (c : FaultCode) (w : Word) (s : State) : (raise c w s).buf = s.buf := rfl
@[simp] theorem raise_cur (c : FaultCode) (w : Word) (s : State) : (raise c w s).cur = s.cur := rfl
@[simp] theorem raise_phase (c : FaultCode) (w : Word) (s : State) : (raise c w s).phase = s.phase := rfl
@[simp] theorem raise_dataOwed (c : FaultCode) (w : Word) (s : State) : (raise c w s).dataOwed = s.dataOwed := rfl
@[simp] theorem raise_rxOwed (c : FaultCode) (w : Word) (s : State) : (raise c w s).rxOwed = s.rxOwed := rfl
@[simp] theorem raise_fault (c : FaultCode) (w : Word) (s : State) : (raise c w s).fault = some c := rfl
@[simp] theorem raise_faultReq (c : FaultCode) (w : Word) (s : State) : (raise c w s).faultReq = some w := rfl
@[simp] theorem raise_hist (c : FaultCode) (w : Word) (s : State) : (raise c w s).hist = s.hist := rfl
@[simp] theorem raise_result (c : FaultCode) (w : Word) (s : State) : (raise c w s).result = some (.fault c) := rfl
@[simp] theorem raise_inputs (c : FaultCode) (w : Word) (s : State) : (raise c w s).inputs = s.inputs := rfl
@[simp] theorem raise_txAnswers (c : FaultCode) (w : Word) (s : State) : (raise c w s).txAnswers = s.txAnswers := rfl
@[simp] theorem raise_rxAnswers (c : FaultCode) (w : Word) (s : State) : (raise c w s).rxAnswers = s.rxAnswers := rfl
@[simp] theorem raise_draws (c : FaultCode) (w : Word) (s : State) : (raise c w s).draws = s.draws := rfl
@[simp] theorem raise_lits (c : FaultCode) (w : Word) (s : State) : (raise c w s).lits = s.lits := rfl

/-! ### `txFlush` is one flush call -/

@[simp] theorem txFlush_div (u : Bytes) (s : State) : (txFlush u s).div = s.div := rfl
@[simp] theorem txFlush_buf (u : Bytes) (s : State) : (txFlush u s).buf = s.buf := rfl
@[simp] theorem txFlush_cur (u : Bytes) (s : State) : (txFlush u s).cur = s.cur := rfl
@[simp] theorem txFlush_phase (u : Bytes) (s : State) : (txFlush u s).phase = s.phase := rfl
@[simp] theorem txFlush_dataOwed (u : Bytes) (s : State) : (txFlush u s).dataOwed = s.dataOwed := rfl
@[simp] theorem txFlush_rxOwed (u : Bytes) (s : State) : (txFlush u s).rxOwed = s.rxOwed := rfl
@[simp] theorem txFlush_fault (u : Bytes) (s : State) : (txFlush u s).fault = s.fault := rfl
@[simp] theorem txFlush_faultReq (u : Bytes) (s : State) : (txFlush u s).faultReq = s.faultReq := rfl
@[simp] theorem txFlush_hist (u : Bytes) (s : State) : (txFlush u s).hist = s.hist ++ [.flush u (nextTxAnswer s)] := rfl
@[simp] theorem txFlush_result (u : Bytes) (s : State) : (txFlush u s).result = s.result := rfl
@[simp] theorem txFlush_inputs (u : Bytes) (s : State) : (txFlush u s).inputs = s.inputs := rfl
@[simp] theorem txFlush_txAnswers (u : Bytes) (s : State) : (txFlush u s).txAnswers = s.txAnswers.tail := rfl
@[simp] theorem txFlush_rxAnswers (u : Bytes) (s : State) : (txFlush u s).rxAnswers = s.rxAnswers := rfl
@[simp] theorem txFlush_draws (u : Bytes) (s : State) : (txFlush u s).draws = s.draws + 1 := rfl
@[simp] theorem txFlush_lits (u : Bytes) (s : State) : (txFlush u s).lits = s.lits := rfl

/-! ### `rxRecv` is one receive call -/

@[simp] theorem rxRecv_div (n : Nat) (s : State) : (rxRecv n s).div = s.div := rfl
@[simp] theorem rxRecv_buf (n : Nat) (s : State) : (rxRecv n s).buf = s.buf := rfl
@[simp] theorem rxRecv_cur (n : Nat) (s : State) : (rxRecv n s).cur = s.cur := rfl
@[simp] theorem rxRecv_phase (n : Nat) (s : State) : (rxRecv n s).phase = s.phase := rfl
@[simp] theorem rxRecv_dataOwed (n : Nat) (s : State) : (rxRecv n s).dataOwed = s.dataOwed := rfl
@[simp] theorem rxRecv_rxOwed (n : Nat) (s : State) : (rxRecv n s).rxOwed = s.rxOwed := rfl
@[simp] theorem rxRecv_fault (n : Nat) (s : State) : (rxRecv n s).fault = s.fault := rfl
@[simp] theorem rxRecv_faultReq (n : Nat) (s : State) : (rxRecv n s).faultReq = s.faultReq := rfl
@[simp] theorem rxRecv_hist (n : Nat) (s : State) : (rxRecv n s).hist = s.hist ++ [.recv n (nextRxAnswer n s)] := rfl
@[simp] theorem rxRecv_result (n : Nat) (s : State) : (rxRecv n s).result = s.result := rfl
@[simp] theorem rxRecv_inputs (n : Nat) (s : State) : (rxRecv n s).inputs = s.inputs := rfl
@[simp] theorem rxRecv_txAnswers (n : Nat) (s : State) : (rxRecv n s).txAnswers = s.txAnswers := rfl
@[simp] theorem rxRecv_rxAnswers (n : Nat) (s : State) : (rxRecv n s).rxAnswers = s.rxAnswers.tail := rfl
@[simp] theorem rxRecv_draws (n : Nat) (s : State) : (rxRecv n s).draws = s.draws + 1 := rfl
@[simp] theorem rxRecv_lits (n : Nat) (s : State) : (rxRecv n s).lits = s.lits := rfl

/-! ### `present` adds one input -/

@[simp] theorem present_div (w : Word) (s : State) : (present w s).div = s.div := rfl
@[simp] theorem present_buf (w : Word) (s : State) : (present w s).buf = s.buf := rfl
@[simp] theorem present_cur (w : Word) (s : State) : (present w s).cur = s.cur := rfl
@[simp] theorem present_phase (w : Word) (s : State) : (present w s).phase = s.phase := rfl
@[simp] theorem present_dataOwed (w : Word) (s : State) : (present w s).dataOwed = s.dataOwed := rfl
@[simp] theorem present_rxOwed (w : Word) (s : State) : (present w s).rxOwed = s.rxOwed := rfl
@[simp] theorem present_fault (w : Word) (s : State) : (present w s).fault = s.fault := rfl
@[simp] theorem present_faultReq (w : Word) (s : State) : (present w s).faultReq = s.faultReq := rfl
@[simp] theorem present_hist (w : Word) (s : State) : (present w s).hist = s.hist := rfl
@[simp] theorem present_result (w : Word) (s : State) : (present w s).result = s.result := rfl
@[simp] theorem present_inputs (w : Word) (s : State) : (present w s).inputs = .request w :: s.inputs := rfl
@[simp] theorem present_txAnswers (w : Word) (s : State) : (present w s).txAnswers = s.txAnswers := rfl
@[simp] theorem present_rxAnswers (w : Word) (s : State) : (present w s).rxAnswers = s.rxAnswers := rfl
@[simp] theorem present_draws (w : Word) (s : State) : (present w s).draws = s.draws := rfl
@[simp] theorem present_lits (w : Word) (s : State) : (present w s).lits = s.lits := rfl

/-! ### `resetSession` sets the session state and keeps the environment -/

@[simp] theorem resetSession_div (s : State) : (resetSession s).div = none := rfl
@[simp] theorem resetSession_buf (s : State) : (resetSession s).buf = [] := rfl
@[simp] theorem resetSession_cur (s : State) : (resetSession s).cur = 0 := rfl
@[simp] theorem resetSession_phase (s : State) : (resetSession s).phase = .open_ := rfl
@[simp] theorem resetSession_dataOwed (s : State) : (resetSession s).dataOwed = 0 := rfl
@[simp] theorem resetSession_rxOwed (s : State) : (resetSession s).rxOwed = 0 := rfl
@[simp] theorem resetSession_fault (s : State) : (resetSession s).fault = none := rfl
@[simp] theorem resetSession_faultReq (s : State) : (resetSession s).faultReq = none := rfl
@[simp] theorem resetSession_hist (s : State) : (resetSession s).hist = [] := rfl
@[simp] theorem resetSession_result (s : State) : (resetSession s).result = none := rfl
@[simp] theorem resetSession_inputs (s : State) : (resetSession s).inputs = s.inputs := rfl
@[simp] theorem resetSession_txAnswers (s : State) : (resetSession s).txAnswers = s.txAnswers := rfl
@[simp] theorem resetSession_rxAnswers (s : State) : (resetSession s).rxAnswers = s.rxAnswers := rfl
@[simp] theorem resetSession_draws (s : State) : (resetSession s).draws = s.draws := rfl
@[simp] theorem resetSession_lits (s : State) : (resetSession s).lits = s.lits := rfl

/-! ### the reset state, field by field -/

@[simp] theorem resetOf_div (l : AdmittedLits) : (State.resetOf l).div = none := rfl
@[simp] theorem resetOf_buf (l : AdmittedLits) : (State.resetOf l).buf = [] := rfl
@[simp] theorem resetOf_cur (l : AdmittedLits) : (State.resetOf l).cur = 0 := rfl
@[simp] theorem resetOf_phase (l : AdmittedLits) : (State.resetOf l).phase = .open_ := rfl
@[simp] theorem resetOf_dataOwed (l : AdmittedLits) : (State.resetOf l).dataOwed = 0 := rfl
@[simp] theorem resetOf_rxOwed (l : AdmittedLits) : (State.resetOf l).rxOwed = 0 := rfl
@[simp] theorem resetOf_fault (l : AdmittedLits) : (State.resetOf l).fault = none := rfl
@[simp] theorem resetOf_faultReq (l : AdmittedLits) : (State.resetOf l).faultReq = none := rfl
@[simp] theorem resetOf_hist (l : AdmittedLits) : (State.resetOf l).hist = [] := rfl
@[simp] theorem resetOf_result (l : AdmittedLits) : (State.resetOf l).result = none := rfl
@[simp] theorem resetOf_inputs (l : AdmittedLits) : (State.resetOf l).inputs = [] := rfl
@[simp] theorem resetOf_txAnswers (l : AdmittedLits) : (State.resetOf l).txAnswers = [] := rfl
@[simp] theorem resetOf_rxAnswers (l : AdmittedLits) : (State.resetOf l).rxAnswers = [] := rfl
@[simp] theorem resetOf_draws (l : AdmittedLits) : (State.resetOf l).draws = 0 := rfl
@[simp] theorem resetOf_lits (l : AdmittedLits) : (State.resetOf l).lits = l := rfl

end Sys2Proof.Machine
end

