-- ==== Sys2Proof/Laws/Memory.lean ====
section
/-! SUPPORT. The command buffer: read after write, the bytes left alone, the canonical form, and the unit a FLUSH reads
(spec/20_memory.md R45, R47; spec/00_scope.md R13). -/

namespace Sys2Proof.Machine

/-! ### Reading -/

@[simp] theorem read_nil (a : Nat) : Memory.read [] a = none := rfl

theorem read_cons (c : Host.Cell) (m : Memory) (a : Nat) :
    Memory.read (c :: m) a = if c.1 = a then some c.2 else Memory.read m a := rfl

theorem read_append (m n : Memory) (a : Nat) :
    Memory.read (m ++ n) a = (Memory.read m a).or (Memory.read n a) := by
  induction m with
  | nil => simp
  | cons c m ih => by_cases h : c.1 = a <;> simp [read_cons, h, ih]

/-- Filtering by a test on addresses keeps the byte at an address that passes it. -/
theorem read_filter_of_pos (m : Memory) (p : Nat → Bool) (a : Nat) (h : p a = true) :
    Memory.read (m.filter fun c => p c.1) a = Memory.read m a := by
  induction m with
  | nil => rfl
  | cons c m ih =>
    by_cases hc : c.1 = a
    · subst hc; simp [read_cons, h]
    · by_cases hp : p c.1 = true <;> simp [read_cons, hp, hc, ih]

/-- Filtering by a test on addresses leaves no byte at an address that fails it. -/
theorem read_filter_of_neg (m : Memory) (p : Nat → Bool) (a : Nat) (h : p a = false) :
    Memory.read (m.filter fun c => p c.1) a = none := by
  induction m with
  | nil => rfl
  | cons c m ih =>
    by_cases hp : p c.1 = true
    · have hc : c.1 ≠ a := fun e => by simp [e, h] at hp
      simp [hp, read_cons, hc, ih]
    · simp [hp, ih]

theorem read_cellsFrom_below (bs : Bytes) (a x : Nat) (h : x < a) : Memory.read (cellsFrom a bs) x = none := by
  induction bs generalizing a with
  | nil => rfl
  | cons b bs ih => simp [cellsFrom, read_cons, Nat.ne_of_gt h, ih (a + 1) (by omega)]

theorem read_cellsFrom (bs : Bytes) (a k : Nat) : Memory.read (cellsFrom a bs) (a + k) = bs[k]? := by
  induction bs generalizing a k with
  | nil => simp [cellsFrom]
  | cons b bs ih =>
    cases k with
    | zero => simp [cellsFrom, read_cons]
    | succ k =>
      have := ih (a + 1) k
      rw [show a + 1 + k = a + (k + 1) by omega] at this
      simp [cellsFrom, read_cons, this]

/-- A byte read back where it was stored. -/
theorem read_write_inside (m : Memory) (a k : Nat) (bs : Bytes) (h : k < bs.length) :
    (m.write a bs).read (a + k) = bs[k]? := by
  have low := read_filter_of_neg m (fun x => decide (x < a)) (a + k) (by simp)
  simp only [Memory.write, read_append, low, read_cellsFrom, List.getElem?_eq_getElem h]
  simp

/-- A byte outside the stored ones reads as before. -/
theorem read_write_outside (m : Memory) (a x : Nat) (bs : Bytes) (h : x < a ∨ a + bs.length ≤ x) :
    (m.write a bs).read x = m.read x := by
  rcases h with h | h
  · have low := read_filter_of_pos m (fun y => decide (y < a)) x (by simpa using h)
    have high := read_filter_of_neg m (fun y => decide (a + bs.length ≤ y)) x (by simp; omega)
    simp only [Memory.write, read_append, low, high, read_cellsFrom_below bs a x h]
    simp
  · obtain ⟨k, rfl⟩ : ∃ k, x = a + k := ⟨x - a, by omega⟩
    have low := read_filter_of_neg m (fun y => decide (y < a)) (a + k) (by simp)
    have high := read_filter_of_pos m (fun y => decide (a + bs.length ≤ y)) (a + k) (by simpa using h)
    have past : bs[k]? = none := List.getElem?_eq_none (by omega)
    simp only [Memory.write, read_append, low, high, read_cellsFrom, past]
    simp

/-! ### The canonical form -/

/-- The canonical form as a fact about the list: addresses rise strictly and lie below CAP. -/
theorem wf_iff (m : Memory) :
    m.wf = true ↔ m.Pairwise (fun c d => c.1 < d.1) ∧ ∀ c ∈ m, c.1 < Config.cap := by
  induction m with
  | nil => simp [Memory.wf]
  | cons c m ih =>
    cases m with
    | nil => simp [Memory.wf]
    | cons d m =>
      simp only [Memory.wf, Bool.and_eq_true, decide_eq_true_eq, ih, List.pairwise_cons, List.mem_cons,
        forall_eq_or_imp]
      constructor
      · rintro ⟨h, ⟨h1, h2⟩, h3, h4⟩
        exact ⟨⟨⟨h, fun e he => lt_trans h (h1 e he)⟩, h1, h2⟩, lt_trans h h3, h3, h4⟩
      · rintro ⟨⟨⟨h, -⟩, h1, h2⟩, -, h3, h4⟩
        exact ⟨h, ⟨h1, h2⟩, h3, h4⟩

theorem mem_cellsFrom (bs : Bytes) (a : Nat) (c : Host.Cell) (h : c ∈ cellsFrom a bs) :
    a ≤ c.1 ∧ c.1 < a + bs.length := by
  induction bs generalizing a with
  | nil => simp [cellsFrom] at h
  | cons b bs ih =>
    rcases List.mem_cons.mp h with rfl | h
    · simp
    · have := ih (a + 1) h
      simp only [List.length_cons]; omega

theorem pairwise_cellsFrom (bs : Bytes) (a : Nat) : (cellsFrom a bs).Pairwise (fun c d => c.1 < d.1) := by
  induction bs generalizing a with
  | nil => simp [cellsFrom]
  | cons b bs ih =>
    refine List.pairwise_cons.mpr ⟨fun c hc => ?_, ih (a + 1)⟩
    have := mem_cellsFrom bs (a + 1) c hc
    show a < c.1
    omega

/-- A write inside the address space keeps the canonical form. -/
theorem write_keeps_wf (m : Memory) (a : Nat) (bs : Bytes) (hm : m.wf = true) (h : a + bs.length ≤ Config.cap) :
    (m.write a bs).wf = true := by
  obtain ⟨order, bound⟩ := (wf_iff m).mp hm
  refine (wf_iff _).mpr ⟨?_, ?_⟩
  · refine List.pairwise_append.mpr ⟨List.pairwise_append.mpr ⟨order.filter _, pairwise_cellsFrom bs a, ?_⟩,
      order.filter _, ?_⟩
    · intro c hc d hd
      have := mem_cellsFrom bs a d hd
      simp only [List.mem_filter, decide_eq_true_eq] at hc
      omega
    · intro c hc d hd
      simp only [List.mem_filter, decide_eq_true_eq] at hd
      rcases List.mem_append.mp hc with hc | hc
      · simp only [List.mem_filter, decide_eq_true_eq] at hc
        omega
      · have := mem_cellsFrom bs a c hc
        omega
  · intro c hc
    rcases List.mem_append.mp hc with hc | hc
    · rcases List.mem_append.mp hc with hc | hc
      · exact bound c (List.mem_filter.mp hc).1
      · have := mem_cellsFrom bs a c hc
        omega
    · exact bound c (List.mem_filter.mp hc).1

/-! ### The unit -/

@[simp] theorem memRead_length (s : State) (a n : Nat) : (memRead s a n).length = n := by
  induction n generalizing a with
  | zero => rfl
  | succ n ih => simp [memRead, ih]

/-- The byte at offset k of a MemRead is that of its cell. -/
theorem memRead_getElem? (s : State) (a n k : Nat) (h : k < n) : (memRead s a n)[k]? = some (cellByte s (a + k)) := by
  induction n generalizing a k with
  | zero => omega
  | succ n ih =>
    cases k with
    | zero => simp [memRead]
    | succ k =>
      have := ih (a + 1) k (by omega)
      rw [show a + 1 + k = a + (k + 1) by omega] at this
      simpa [memRead] using this

/-- MemRead depends only on the cells it reads and on the draw counter. -/
theorem memRead_congr (s t : State) (a n : Nat) (hd : t.draws = s.draws)
    (h : ∀ x, a ≤ x → x < a + n → t.buf.read x = s.buf.read x) : memRead t a n = memRead s a n := by
  induction n generalizing a with
  | zero => rfl
  | succ n ih =>
    simp only [memRead, cellByte, hd, h a (by omega) (by omega)]
    rw [ih (a + 1) fun x h1 h2 => h x (by omega) (by omega)]

theorem memRead_add (s : State) (a n k : Nat) : memRead s a (n + k) = memRead s a n ++ memRead s (a + n) k := by
  induction n generalizing a with
  | zero => simp [memRead]
  | succ n ih =>
    rw [show n + 1 + k = (n + k) + 1 by omega]
    simp only [memRead, ih (a + 1), List.cons_append]
    rw [show a + 1 + n = a + (n + 1) by omega]

/-- MemRead over the cells of a stored string gives the string. -/
theorem memRead_stored (s : State) (a : Nat) (bs : Bytes)
    (h : ∀ k b, bs[k]? = some b → s.buf.read (a + k) = some b) : memRead s a bs.length = bs := by
  induction bs generalizing a with
  | nil => rfl
  | cons b bs ih =>
    have h0 := h 0 b (by simp)
    simp only [Nat.add_zero] at h0
    simp only [List.length_cons, memRead, cellByte, h0, Option.getD_some]
    rw [ih (a + 1) fun k c hk => by rw [show a + 1 + k = a + (k + 1) by omega]; exact h (k + 1) c (by simpa using hk)]

@[simp] theorem unitOf_length (s : State) : (unitOf s).length = s.cur := memRead_length s 0 s.cur

theorem unitOf_empty (s : State) (h : s.cur = 0) : unitOf s = [] := by simp [unitOf, h, memRead]

/-- The unit depends only on CUR, the cells below it and the draw counter. -/
theorem unitOf_congr (s t : State) (hc : t.cur = s.cur) (hd : t.draws = s.draws) (hb : t.buf = s.buf) :
    unitOf t = unitOf s := by
  simp only [unitOf, hc]
  exact memRead_congr s t 0 s.cur hd fun x _ _ => by rw [hb]

end Sys2Proof.Machine
end

