-- ==== Sys2Proof/Laws/Ops.lean ====
section
/-! SUPPORT. What each shared operation can do, once: Append, the prologue, the end of a body, the transport answers, the
loop count and the read sequence. -/

namespace Sys2Proof.Machine

/-! ### Append -/

/-- The state a completed Append leaves. -/
def pushed (s : State) (bs : Bytes) : State := { s with buf := s.buf.write s.cur bs, cur := s.cur + bs.length }

@[simp] theorem pushed_div (s : State) (bs : Bytes) : (pushed s bs).div = s.div := rfl
@[simp] theorem pushed_buf (s : State) (bs : Bytes) : (pushed s bs).buf = s.buf.write s.cur bs := rfl
@[simp] theorem pushed_cur (s : State) (bs : Bytes) : (pushed s bs).cur = s.cur + bs.length := rfl
@[simp] theorem pushed_phase (s : State) (bs : Bytes) : (pushed s bs).phase = s.phase := rfl
@[simp] theorem pushed_dataOwed (s : State) (bs : Bytes) : (pushed s bs).dataOwed = s.dataOwed := rfl
@[simp] theorem pushed_rxOwed (s : State) (bs : Bytes) : (pushed s bs).rxOwed = s.rxOwed := rfl
@[simp] theorem pushed_fault (s : State) (bs : Bytes) : (pushed s bs).fault = s.fault := rfl
@[simp] theorem pushed_faultReq (s : State) (bs : Bytes) : (pushed s bs).faultReq = s.faultReq := rfl
@[simp] theorem pushed_hist (s : State) (bs : Bytes) : (pushed s bs).hist = s.hist := rfl
@[simp] theorem pushed_result (s : State) (bs : Bytes) : (pushed s bs).result = s.result := rfl
@[simp] theorem pushed_inputs (s : State) (bs : Bytes) : (pushed s bs).inputs = s.inputs := rfl
@[simp] theorem pushed_txAnswers (s : State) (bs : Bytes) : (pushed s bs).txAnswers = s.txAnswers := rfl
@[simp] theorem pushed_rxAnswers (s : State) (bs : Bytes) : (pushed s bs).rxAnswers = s.rxAnswers := rfl
@[simp] theorem pushed_draws (s : State) (bs : Bytes) : (pushed s bs).draws = s.draws := rfl
@[simp] theorem pushed_lits (s : State) (bs : Bytes) : (pushed s bs).lits = s.lits := rfl

/-- Append where the string fits. -/
theorem append_of_fits {s : State} {bs : Bytes} (h : s.cur + bs.length ≤ Config.cap) :
    append s bs = .ok (pushed s bs) := if_neg (Nat.not_lt.mpr h)

/-- Append where it does not. -/
theorem append_of_overflow {s : State} {bs : Bytes} (h : Config.cap < s.cur + bs.length) :
    append s bs = .error .bufferOverflow := if_pos h

/-- All an Append can do. -/
theorem append_cases (s : State) (bs : Bytes) :
    (s.cur + bs.length ≤ Config.cap ∧ append s bs = .ok (pushed s bs))
    ∨ (Config.cap < s.cur + bs.length ∧ append s bs = .error .bufferOverflow) := by
  by_cases h : s.cur + bs.length ≤ Config.cap
  · exact .inl ⟨h, append_of_fits h⟩
  · exact .inr ⟨Nat.not_le.mp h, append_of_overflow (Nat.not_le.mp h)⟩

/-- The bytes of a completed Append, and those it leaves alone. -/
theorem pushed_appended (s : State) (bs : Bytes) : Appended s (pushed s bs) bs where
  cursor := rfl
  stored k b hk := by
    have h : k < bs.length := (List.getElem?_eq_some_iff.mp hk).1
    rw [pushed_buf, read_write_inside _ _ _ _ h, hk]
  elsewhere a h := read_write_outside _ _ _ _ h

/-- Two states with the same buffer, CUR and draw counter as an appended one have the appended unit. -/
theorem unitOf_pushed (s t : State) (bs : Bytes) (hb : t.buf = s.buf.write s.cur bs) (hc : t.cur = s.cur + bs.length)
    (hd : t.draws = s.draws) : unitOf t = unitOf s ++ bs := by
  have old : memRead t 0 s.cur = memRead s 0 s.cur :=
    memRead_congr s t 0 s.cur hd fun x _ hx => by
      rw [hb]; exact read_write_outside _ _ _ _ (.inl (by omega))
  have new : memRead t s.cur bs.length = bs :=
    memRead_stored t s.cur bs fun k b hk => by
      rw [hb, read_write_inside _ _ _ _ (List.getElem?_eq_some_iff.mp hk).1, hk]
  simp only [unitOf, hc, memRead_add, old, Nat.zero_add, new]

/-! ### Answers of the transport -/

theorem allowedAnswer_length {n : Nat} {a : RxAnswer} {bs : Bytes} (h : allowedAnswer n a = .ok bs) :
    bs.length ≤ n := by
  cases a with
  | ok cs =>
    simp only [allowedAnswer, RxAnswer.ok.injEq] at h
    subst h; simp
  | err => simp [allowedAnswer] at h

/-- An answer to a receive of n bytes is an allowed form of some answer. -/
theorem nextRxAnswer_allowed (n : Nat) (s : State) : ∃ a, nextRxAnswer n s = allowedAnswer n a := by
  cases h : s.rxAnswers with
  | nil => exact ⟨Config.freeRxAnswer s.draws, by simp [nextRxAnswer, h]⟩
  | cons a rest => exact ⟨a, by simp [nextRxAnswer, h]⟩

/-- RECV_ACK's answer is no byte, one byte, or an error. -/
theorem nextRxAnswer_one (s : State) :
    (∃ h, nextRxAnswer 1 s = .ok [h]) ∨ nextRxAnswer 1 s = .ok [] ∨ nextRxAnswer 1 s = .err := by
  obtain ⟨a, ha⟩ := nextRxAnswer_allowed 1 s
  rw [ha]
  cases a with
  | err => simp [allowedAnswer]
  | ok bs =>
    cases bs with
    | nil => simp [allowedAnswer]
    | cons b bs => exact .inl ⟨b, by simp [allowedAnswer]⟩

/-! ### The prologue and the end of a body -/

theorem admission_none_iff (i : Instr) (p : Phase) : admission i p = none ↔ p ∈ admittedPhases i := by
  cases i <;> cases p <;> simp [admission, admittedPhases]

theorem prologue_of_fault {i : Instr} {s : State} {c : FaultCode} (h : s.fault = some c) :
    prologue i s = some (reply (.fault c) s) := by simp [prologue, h]

theorem prologue_of_not_admitted {i : Instr} {s : State} {c : FaultCode} (h : s.fault = none)
    (ha : admission i s.phase = some c) : prologue i s = some (raise c (encode i) s) := by simp [prologue, h, ha]

theorem prologue_of_admitted {i : Instr} {s : State} (h : s.fault = none) (ha : s.phase ∈ admittedPhases i) :
    prologue i s = none := by simp [prologue, h, (admission_none_iff i s.phase).mpr ha]

/-- An admitted request performs its body. -/
theorem perform_of_admitted {i : Instr} {s : State} {body : Answer} (h : s.fault = none)
    (ha : s.phase ∈ admittedPhases i) : perform i s body = body := by simp [perform, prologue_of_admitted h ha]

/-- A request that is not admitted takes fault entry. -/
theorem perform_of_not_admitted {i : Instr} {s : State} {body : Answer} {c : FaultCode} (h : s.fault = none)
    (ha : admission i s.phase = some c) : perform i s body = .next (raise c (encode i) s) := by
  simp [perform, prologue_of_not_admitted h ha]

/-- All a performed request can do: the sticky fault, an admission fault, or its body. -/
theorem perform_cases (i : Instr) (s : State) (body : Answer) :
    (∃ c, s.fault = some c ∧ perform i s body = .next (reply (.fault c) s))
    ∨ (∃ c, s.fault = none ∧ admission i s.phase = some c ∧ perform i s body = .next (raise c (encode i) s))
    ∨ (s.fault = none ∧ s.phase ∈ admittedPhases i ∧ perform i s body = body) := by
  cases hf : s.fault with
  | some c => exact .inl ⟨c, rfl, by simp [perform, prologue_of_fault hf]⟩
  | none =>
    cases ha : admission i s.phase with
    | some c => exact .inr (.inl ⟨c, rfl, rfl, perform_of_not_admitted hf ha⟩)
    | none =>
      have h := (admission_none_iff i s.phase).mp ha
      exact .inr (.inr ⟨rfl, h, perform_of_admitted hf h⟩)

/-! ### The loop count and the read sequence -/

theorem rep_length (k : Nat) (bs : Bytes) : (rep k bs).length = k * bs.length := by
  induction k with
  | zero => simp [rep]
  | succ k ih => simp [rep, ih, Nat.succ_mul, Nat.add_comm]

theorem loopCount_eq_zero_iff (d : Half) : loopCount d = 0 ↔ d.toNat ≤ 6 := by
  simp only [loopCount]; omega

/-- A list that is one piece written m times passes the check for it, and has at least m commands, if any. -/
theorem isPower_flatten {m : Nat} {w cs : List Cmd} (hcs : cs ≠ []) (h : (List.replicate m w).flatten = cs) :
    isPower m cs = true ∧ m ≤ cs.length := by
  have hlen : cs.length = m * w.length := by simp [← h]
  have hpos : 0 < m * w.length := hlen ▸ List.length_pos_iff.mpr hcs
  have hm : 0 < m := Nat.pos_of_mul_pos_right hpos
  obtain ⟨n, rfl⟩ := Nat.exists_eq_succ_of_ne_zero hm.ne'
  refine ⟨?_, hlen ▸ Nat.le_mul_of_pos_right _ (Nat.pos_of_mul_pos_left hpos)⟩
  have hw : cs.take w.length = w := by simp [← h, List.replicate_succ]
  simp only [isPower, beq_iff_eq]
  rw [hlen, Nat.mul_div_cancel_left _ hm, hw, h]

/-- What the check of a power says: the list is not one piece written more than k times. -/
theorem powerAtMost_of_check {k : Nat} {cs : List Cmd} (hcs : cs ≠ []) (h : isPowerAtMost k cs = true) : PowerAtMost k cs := by
  intro m v hv
  obtain ⟨hp, hm⟩ := isPower_flatten hcs hv
  simp only [isPowerAtMost, List.all_eq_true, List.mem_range, Bool.or_eq_true, Bool.not_eq_true', decide_eq_true_eq] at h
  exact (h m (Nat.lt_succ_of_le hm)).resolve_left (by rw [hp]; exact Bool.noConfusion)

/-- The check for a run at the start says that a piece that is not empty, written n times, starts the list. -/
theorem startsWithRun_iff {α : Type} [DecidableEq α] {n : Nat} {cs : List α} (hn : 0 < n) :
    startsWithRun n cs = true ↔ ∃ w, w ≠ [] ∧ (List.replicate n w).flatten <+: cs := by
  obtain ⟨n, rfl⟩ := Nat.exists_eq_succ_of_ne_zero hn.ne'
  simp only [startsWithRun, List.any_eq_true, List.mem_range, List.isPrefixOf_iff_prefix]
  constructor
  · rintro ⟨m, hm, h⟩
    exact ⟨_, List.length_pos_iff.mp (by simp; omega), h⟩
  · rintro ⟨w, hw, h⟩
    have hp : w <+: cs := .trans (by simp [List.replicate_succ]) h
    have hlen := List.length_pos_iff.mpr hw
    refine ⟨w.length - 1, by have := hp.length_le; omega, ?_⟩
    rwa [Nat.sub_add_cancel hlen, ← List.prefix_iff_eq_take.mp hp]

theorem hasRun_iff {α : Type} [DecidableEq α] {n : Nat} {cs : List α} (hn : 0 < n) :
    hasRun n cs = true ↔ HasRun n cs := by
  induction cs with
  | nil =>
    simp only [hasRun, HasRun, List.infix_nil, Bool.false_eq_true, false_iff, not_exists, not_and]
    intro w hw h
    obtain ⟨n, rfl⟩ := Nat.exists_eq_succ_of_ne_zero hn.ne'
    exact hw (by simpa using h)
  | cons c cs ih =>
    simp only [hasRun, Bool.or_eq_true, startsWithRun_iff hn, ih, HasRun, List.infix_cons_iff, and_or_left, exists_or]

/-- The check for blocks says that the list is blocks of exactly k cycles, and with those before them no repetition more. -/
theorem blocks_of_isBlocks {k fuel : Nat} {done : List (List Cmd)} {cs : List Cmd} (hk : 0 < k) (h : isBlocks k fuel done cs = true) :
    ∃ ws : List (List Cmd), cs = (ws.map fun w => (List.replicate k w).flatten).flatten ∧ (done ++ ws).IsChain (· ≠ ·)
      ∧ ¬ HasRun (k + 1) (done ++ ws) ∧ ∀ w ∈ ws, PowerAtMost 1 w ∧ ¬ HasRun k w := by
  have stop : ∀ done : List (List Cmd), decide (done.IsChain (· ≠ ·)) = true ∧ hasRun (k + 1) done = false →
      (done ++ []).IsChain (· ≠ ·) ∧ ¬ HasRun (k + 1) (done ++ []) := fun done h => by
    rw [List.append_nil, ← hasRun_iff k.succ_pos, Bool.not_eq_true]
    exact ⟨of_decide_eq_true h.1, h.2⟩
  induction fuel generalizing done cs with
  | zero =>
    cases cs with
    | nil =>
      simp only [isBlocks, Bool.and_eq_true, Bool.not_eq_true'] at h
      exact ⟨[], rfl, (stop done h).1, (stop done h).2, by simp⟩
    | cons c cs => simp [isBlocks] at h
  | succ fuel ih =>
    cases cs with
    | nil =>
      simp only [isBlocks, Bool.and_eq_true, Bool.not_eq_true'] at h
      exact ⟨[], rfl, (stop done h).1, (stop done h).2, by simp⟩
    | cons c cs =>
      simp only [isBlocks, List.any_eq_true, Bool.and_eq_true, List.isPrefixOf_iff_prefix, Bool.not_eq_true',
        ← Bool.not_eq_true, hasRun_iff hk] at h
      obtain ⟨m, -, ⟨⟨hprim, hheld⟩, hpre⟩, hrest⟩ := h
      have hw : (c :: cs).take (m + 1) ≠ [] := by simp
      generalize (c :: cs).take (m + 1) = w at hprim hheld hpre hrest hw
      obtain ⟨rest, hr⟩ := hpre
      obtain ⟨ws, hws, hchain, hrun, hall⟩ := ih hrest
      rw [List.append_assoc, List.singleton_append] at hchain hrun
      refine ⟨w :: ws, ?_, hchain, hrun,
        List.forall_mem_cons.mpr ⟨⟨powerAtMost_of_check hw hprim, hheld⟩, hall⟩⟩
      rw [List.map_cons, List.flatten_cons, ← hws, ← hr, List.drop_left]

/-- What the check of one cut says: exactly k repetitions, and then a way to settle. -/
theorem repeatsThenSettles_prop {k : Nat} {body settle : List Cmd} (hk : 0 < k) (h : repeatsThenSettles k body settle = true) :
    RepeatsThenSettles k body settle := by
  simp only [repeatsThenSettles, repeatsExactly, Bool.and_eq_true, decide_eq_true_eq, Bool.or_eq_true, bne_iff_ne,
    List.any_eq_true, List.all_eq_true, Bool.not_eq_true', ← Bool.not_eq_true, hasRun_iff k.succ_pos, List.contains_iff_mem] at h
  obtain ⟨⟨⟨hd, c, hc, hn⟩, ⟨hr, hcopies⟩, he⟩, hj⟩ := h
  obtain ⟨hc, h1⟩ := List.mem_filter.mp hc
  have hmore : ¬ HasRun (k + 1) body ∨ ExactCycles k (repeatedIn body) ∨ Blocks k (repeatedIn body) := by
    obtain (he | ⟨hp, hm⟩) | hb := he
    · exact .inl he
    · exact .inr (.inl ⟨⟨_, beq_iff_eq.mp hp⟩, powerAtMost_of_check hr hm⟩)
    · exact .inr (.inr (blocks_of_isBlocks hk hb))
  refine ⟨⟨fun c hc => ?_, hmore⟩, ⟨c, hc, by simpa using h1, hn⟩,
    ⟨(List.nodup_append.mp hd).2.1, fun d hd' h1 => ?_⟩, hj⟩
  · exact or_iff_not_imp_left.mpr fun h1 => hcopies c (List.mem_filter.mpr ⟨hc, by simpa using h1⟩)
  · have hb : d ∈ onceIn body := List.mem_filter.mpr ⟨List.count_pos_iff.mp (by omega), by simpa using h1⟩
    exact List.disjoint_of_nodup_append hd hb hd'

/-- What LitsWF says of the strings' lengths (spec/30_encoding.md R80 points 4, 5, 6). -/
theorem admittedLits_lengths (l : AdmittedLits) :
    l.val.boHead.length = 3 ∧ l.val.rdHead.length = 3 ∧ 0 < l.val.rdG0.length ∧ 0 < l.val.rdG1.length
      ∧ 0 < l.val.rdG2.length := by
  have h := l.wf
  simp only [litsWF, lits4, lits5, lits6, Bool.and_eq_true, beq_iff_eq, bne_iff_ne] at h
  obtain ⟨⟨⟨⟨⟨⟨-, -⟩, hb, -⟩, hr⟩, ⟨h0, h1⟩, h2⟩, -⟩, -⟩ := h
  refine ⟨by rw [hb]; rfl, by rw [hr]; rfl, ?_, ?_, ?_⟩ <;> exact List.length_pos_iff.mpr ‹_›

/-- A READ that completes appends at least 4 bytes (spec/10_state.md R24). -/
theorem rdSeq_length_ge (l : AdmittedLits) (L : Nat) (h : L ≠ 0) : 4 ≤ (rdSeq l.val L).length := by
  obtain ⟨-, hr, h0, -, -⟩ := admittedLits_lengths l
  have : 1 * 1 ≤ L * l.val.rdG0.length := Nat.mul_le_mul (Nat.one_le_iff_ne_zero.mpr h) h0
  simp only [rdSeq, List.length_append, rep_length, hr]
  omega

end Sys2Proof.Machine
end

