-- ==== Sys2Proof/Laws/Exec.lean ====
section
/-! SUPPORT. What performing a request can do, once: the sticky fault, fault entry, or its own completion. Every claim
about all requests is a case analysis on `exec_cases`. -/

namespace Sys2Proof.Machine

/-- The conditions under which a request's own effect happens, and the state it leaves (the bodies of
spec/40_bus_primitives.md and spec/41_session_transport.md). -/
def Completes (i : Instr) (s t : State) : Prop :=
  match i with
  | .configure d => t = reply .ok { s with div := some d }
  | .start => s.cur + s.lits.val.startSeq.length ≤ Config.cap ∧ t = reply .ok (pushed s s.lits.val.startSeq)
  | .stop => s.cur + s.lits.val.stopSeq.length ≤ Config.cap ∧ t = reply .ok (pushed s s.lits.val.stopSeq)
  | .byteOut b => s.dataOwed = 0 ∧ s.cur + (byteOutSeq s.lits.val b).length ≤ Config.cap
      ∧ t = reply .ok { pushed s (byteOutSeq s.lits.val b) with phase := .ackQueued }
  | .ackRelease => s.cur + s.lits.val.ackReleaseSeq.length ≤ Config.cap
      ∧ t = reply .ok { pushed s s.lits.val.ackReleaseSeq with phase := .open_ }
  | .read n => ∃ d, n.toNat = 1 ∧ s.div = some d ∧ loopCount d ≠ 0
      ∧ s.cur + (rdSeq s.lits.val (loopCount d)).length ≤ Config.cap
      ∧ t = reply .ok { pushed s (rdSeq s.lits.val (loopCount d)) with dataOwed := s.dataOwed + 1 }
  | .flush => s.cur ≤ Config.cap ∧ t = flushBody s
  | .recvAck => t = recvAckBody s
  | .recv n => n.toNat = s.rxOwed ∧ t = reply (recvResult n.toNat (nextRxAnswer n.toNat s))
      { rxRecv n.toNat s with rxOwed := 0, phase := .open_ }

/-- The body of READ, case by case. -/
theorem readBody_cases (n : Half) (s : State) :
    (∃ t, Completes (.read n) s t ∧ readBody n s = .ok t)
    ∨ (n.toNat ≠ 1 ∧ readBody n s = .error .readLengthUnsupported)
    ∨ (n.toNat = 1 ∧ s.div = none ∧ readBody n s = .error .divisorUnset)
    ∨ (∃ d, n.toNat = 1 ∧ s.div = some d ∧ loopCount d = 0 ∧ readBody n s = .error .loopCountZero)
    ∨ (∃ d, n.toNat = 1 ∧ s.div = some d ∧ loopCount d ≠ 0
        ∧ Config.cap < s.cur + (rdSeq s.lits.val (loopCount d)).length ∧ readBody n s = .error .bufferOverflow) := by
  by_cases hn : n.toNat = 1
  · cases hd : s.div with
    | none => exact .inr (.inr (.inl ⟨hn, rfl, by simp [readBody, Config.readNAdmitted, hn, hd]⟩))
    | some d =>
      by_cases hL : loopCount d = 0
      · exact .inr (.inr (.inr (.inl ⟨d, hn, rfl, hL, by simp [readBody, Config.readNAdmitted, hn, hd, hL]⟩)))
      · rcases append_cases s (rdSeq s.lits.val (loopCount d)) with ⟨hfit, happ⟩ | ⟨hover, happ⟩
        · exact .inl ⟨_, ⟨d, hn, hd, hL, hfit, rfl⟩, by
            simp [readBody, Config.readNAdmitted, hn, hd, hL, happ, Except.map]⟩
        · exact .inr (.inr (.inr (.inr ⟨d, hn, rfl, hL, hover, by
            simp [readBody, Config.readNAdmitted, hn, hd, hL, happ, Except.map]⟩)))
  · exact .inr (.inl ⟨hn, by simp [readBody, Config.readNAdmitted, hn]⟩)

/-- An admitted request completes, takes fault entry with a code above the admission codes, or (FLUSH outside its range)
stops. -/
theorem exec_of_admitted (i : Instr) (s : State) (hf : s.fault = none) (ha : s.phase ∈ admittedPhases i) :
    (∃ t, Completes i s t ∧ exec i s = .next t)
    ∨ (∃ c, 3 < c.code ∧ causeOf i s c ∧ (∀ t, ¬ Completes i s t) ∧ Raises i s c)
    ∨ (i = .flush ∧ Config.cap < s.cur ∧ exec i s = .fault (.addressOutsideBuffer Config.cap)) := by
  cases i with
  | configure d => exact .inl ⟨_, rfl, by simp [exec, execConfigure, perform_of_admitted hf ha, conclude, configureBody]⟩
  | start =>
    rcases append_cases s s.lits.val.startSeq with ⟨h, e⟩ | ⟨h, e⟩
    · exact .inl ⟨_, ⟨h, rfl⟩, by simp [exec, execStart, perform_of_admitted hf ha, conclude, startBody, e, Except.map]⟩
    · exact .inr (.inl ⟨.bufferOverflow, by decide, ⟨_, rfl, h⟩, fun t ht => by have := ht.1; omega,
        by simp [Raises, exec, execStart, perform_of_admitted hf ha, conclude, startBody, e, Except.map]⟩)
  | stop =>
    rcases append_cases s s.lits.val.stopSeq with ⟨h, e⟩ | ⟨h, e⟩
    · exact .inl ⟨_, ⟨h, rfl⟩, by simp [exec, execStop, perform_of_admitted hf ha, conclude, stopBody, e, Except.map]⟩
    · exact .inr (.inl ⟨.bufferOverflow, by decide, ⟨_, rfl, h⟩, fun t ht => by have := ht.1; omega,
        by simp [Raises, exec, execStop, perform_of_admitted hf ha, conclude, stopBody, e, Except.map]⟩)
  | byteOut b =>
    by_cases hd : 0 < s.dataOwed
    · exact .inr (.inl ⟨.mixedResponse, by decide, ⟨b, rfl, hd⟩, fun t ht => by have := ht.1; omega,
        by simp [Raises, exec, execByteOut, perform_of_admitted hf ha, conclude, byteOutBody, hd]⟩)
    · rcases append_cases s (byteOutSeq s.lits.val b) with ⟨h, e⟩ | ⟨h, e⟩
      · exact .inl ⟨_, ⟨by omega, h, rfl⟩, by
          simp [exec, execByteOut, perform_of_admitted hf ha, conclude, byteOutBody, hd, e, Except.map]⟩
      · exact .inr (.inl ⟨.bufferOverflow, by decide, ⟨_, rfl, h⟩, fun t ht => by have := ht.2.1; omega,
          by simp [Raises, exec, execByteOut, perform_of_admitted hf ha, conclude, byteOutBody, hd, e, Except.map]⟩)
  | ackRelease =>
    rcases append_cases s s.lits.val.ackReleaseSeq with ⟨h, e⟩ | ⟨h, e⟩
    · exact .inl ⟨_, ⟨h, rfl⟩, by
        simp [exec, execAckRelease, perform_of_admitted hf ha, conclude, ackReleaseBody, e, Except.map]⟩
    · exact .inr (.inl ⟨.bufferOverflow, by decide, ⟨_, rfl, h⟩, fun t ht => by have := ht.1; omega,
        by simp [Raises, exec, execAckRelease, perform_of_admitted hf ha, conclude, ackReleaseBody, e, Except.map]⟩)
  | read n =>
    rcases readBody_cases n s with ⟨t, ht, e⟩ | ⟨hn, e⟩ | ⟨hn, hd, e⟩ | ⟨d, hn, hd, hL, e⟩ | ⟨d, hn, hd, hL, h, e⟩
    · exact .inl ⟨t, ht, by simp [exec, execRead, perform_of_admitted hf ha, conclude, e]⟩
    · exact .inr (.inl ⟨.readLengthUnsupported, by decide, ⟨n, rfl, hn⟩, fun t ⟨_, h1, _⟩ => hn h1,
        by simp [Raises, exec, execRead, perform_of_admitted hf ha, conclude, e]⟩)
    · exact .inr (.inl ⟨.divisorUnset, by decide, ⟨n, rfl, hd⟩, fun t ⟨_, _, h2, _⟩ => by simp [hd] at h2,
        by simp [Raises, exec, execRead, perform_of_admitted hf ha, conclude, e]⟩)
    · refine .inr (.inl ⟨.loopCountZero, by decide, ⟨n, d, rfl, hd, (loopCount_eq_zero_iff d).mp hL⟩, ?_,
        by simp [Raises, exec, execRead, perform_of_admitted hf ha, conclude, e]⟩)
      rintro t ⟨d', -, h2, h3, -⟩
      rw [hd] at h2; cases h2; exact h3 hL
    · refine .inr (.inl ⟨.bufferOverflow, by decide, ⟨rdSeq s.lits.val (loopCount d), by simp [stringOf, hd], h⟩, ?_,
        by simp [Raises, exec, execRead, perform_of_admitted hf ha, conclude, e]⟩)
      rintro t ⟨d', -, h2, -, h4, -⟩
      rw [hd] at h2; cases h2; omega
  | flush =>
    by_cases h : s.cur ≤ Config.cap
    · exact .inl ⟨_, ⟨h, rfl⟩, by simp only [exec, execFlush, perform_of_admitted hf ha, if_pos h]⟩
    · exact .inr (.inr ⟨rfl, by omega, by simp only [exec, execFlush, perform_of_admitted hf ha, if_neg h]⟩)
  | recvAck => exact .inl ⟨_, rfl, by simp [exec, execRecvAck, perform_of_admitted hf ha]⟩
  | recv n =>
    by_cases h : n.toNat = s.rxOwed
    · exact .inl ⟨_, ⟨h, rfl⟩, by simp [exec, execRecv, perform_of_admitted hf ha, conclude, recvBody, h]⟩
    · exact .inr (.inl ⟨.recvSizeMismatch, by decide, ⟨n, rfl, h⟩, fun t ht => h ht.1,
        by simp [Raises, exec, execRecv, perform_of_admitted hf ha, conclude, recvBody, h]⟩)

/-- A request completes in one way only. -/
theorem completes_unique {i : Instr} {s t u : State} (ht : Completes i s t) (hu : Completes i s u) : t = u := by
  cases i with
  | configure d => exact ht.trans hu.symm
  | start => exact ht.2.trans hu.2.symm
  | stop => exact ht.2.trans hu.2.symm
  | byteOut b => exact ht.2.2.trans hu.2.2.symm
  | ackRelease => exact ht.2.trans hu.2.symm
  | read n =>
    obtain ⟨d, -, hd, -, -, et⟩ := ht
    obtain ⟨e, -, he, -, -, eu⟩ := hu
    rw [hd] at he; cases he
    exact et.trans eu.symm
  | flush => exact ht.2.trans hu.2.symm
  | recvAck => exact ht.trans hu.symm
  | recv n => exact ht.2.trans hu.2.symm

/-- An admitted request whose conditions hold leaves the state its rule gives. -/
theorem exec_of_completes {i : Instr} {s t : State} (hf : s.fault = none) (ha : s.phase ∈ admittedPhases i)
    (hc : Completes i s t) : exec i s = .next t := by
  rcases exec_of_admitted i s hf ha with ⟨u, hu, e⟩ | ⟨c, -, -, hno, -⟩ | ⟨rfl, hover, -⟩
  · rw [e, completes_unique hu hc]
  · exact absurd hc (hno t)
  · exact absurd hc.1 (Nat.not_le.mpr hover)

/-- Every request is performed under the common prologue (spec/60_exceptions.md R111). -/
theorem exec_perform (i : Instr) (s : State) : ∃ body, exec i s = perform i s body := by
  cases i <;> exact ⟨_, rfl⟩

/-- A request while FAULT is set. -/
theorem exec_of_fault {i : Instr} {s : State} {c : FaultCode} (h : s.fault = some c) :
    exec i s = .next (reply (.fault c) s) := by
  obtain ⟨body, e⟩ := exec_perform i s
  simp [e, perform, prologue_of_fault h]

/-- A request that PHASE does not let in. -/
theorem exec_of_not_admitted {i : Instr} {s : State} {c : FaultCode} (h : s.fault = none)
    (ha : admission i s.phase = some c) : Raises i s c := by
  obtain ⟨body, e⟩ := exec_perform i s
  exact e.trans (perform_of_not_admitted h ha)

/-- All that performing a request can do, where it leaves a next state. -/
theorem exec_cases {i : Instr} {s t : State} (h : exec i s = .next t) :
    (∃ c, s.fault = some c ∧ t = reply (.fault c) s)
    ∨ (∃ c, s.fault = none ∧ (∀ u, s.phase ∈ admittedPhases i → ¬ Completes i s u) ∧ Raises i s c
        ∧ t = raise c (encode i) s)
    ∨ (s.fault = none ∧ s.phase ∈ admittedPhases i ∧ Completes i s t) := by
  cases hf : s.fault with
  | some c =>
    rw [exec_of_fault hf] at h; cases h
    exact .inl ⟨c, rfl, rfl⟩
  | none =>
    cases ha : admission i s.phase with
    | some c =>
      have hr := exec_of_not_admitted hf ha
      have e := h.symm.trans hr; cases e
      refine .inr (.inl ⟨c, rfl, fun u hu => ?_, hr, rfl⟩)
      rw [(admission_none_iff i s.phase).mpr hu] at ha; cases ha
    | none =>
      have hm := (admission_none_iff i s.phase).mp ha
      rcases exec_of_admitted i s hf hm with ⟨u, hu, e⟩ | ⟨c, -, -, hno, hr⟩ | ⟨-, -, e⟩
      · rw [e] at h; cases h
        exact .inr (.inr ⟨rfl, hm, hu⟩)
      · have e := h.symm.trans hr; cases e
        exact .inr (.inl ⟨c, rfl, fun u _ => hno u, hr, rfl⟩)
      · rw [e] at h; cases h

/-- A completed request raises no fault. -/
theorem completes_fault {i : Instr} {s t : State} (h : Completes i s t) : t.fault = s.fault := by
  cases i with
  | configure d => rw [h]; rfl
  | start => rw [h.2]; rfl
  | stop => rw [h.2]; rfl
  | byteOut b => rw [h.2.2]; rfl
  | ackRelease => rw [h.2]; rfl
  | read n => obtain ⟨d, -, -, -, -, e⟩ := h; rw [e]; rfl
  | flush => rw [h.2]; rfl
  | recvAck => rw [h]; rfl
  | recv n => rw [h.2]; rfl

end Sys2Proof.Machine
end

