-- ==== Sys2Proof/Laws/PerInstr.lean ====
section
/-! SUPPORT. Statements about every request as syntax, one lemma per constructor. -/

namespace Sys2Proof.Laws

/-- The fields of an encoded request are its opcode, zeros, and its operand (spec/30_encoding.md R61, R62). -/
def EncodeFields.Statement (i : Instr) : Prop :=
  opField (encode i) = opcodeOf i ∧ rsvField (encode i) = 0#12 ∧ argField (encode i) = operandOf i

/-- The fields of any encoded request. -/
theorem encode_fields (i : Instr) : EncodeFields.Statement i :=
  ⟨opField_append _ _ _, rsvField_append _ _ _, argField_append _ _ _⟩

theorem EncodeFields.configure (d : Half) : EncodeFields.Statement (.configure d) := encode_fields _
theorem EncodeFields.start : EncodeFields.Statement .start := encode_fields _
theorem EncodeFields.stop : EncodeFields.Statement .stop := encode_fields _
theorem EncodeFields.byteOut (b : Byte) : EncodeFields.Statement (.byteOut b) := encode_fields _
theorem EncodeFields.ackRelease : EncodeFields.Statement .ackRelease := encode_fields _
theorem EncodeFields.read (n : Half) : EncodeFields.Statement (.read n) := encode_fields _
theorem EncodeFields.flush : EncodeFields.Statement .flush := encode_fields _
theorem EncodeFields.recvAck : EncodeFields.Statement .recvAck := encode_fields _
theorem EncodeFields.recv (n : Half) : EncodeFields.Statement (.recv n) := encode_fields _

end Sys2Proof.Laws
end

