-- ==== Sys2Proof/Laws/Run.lean ====
section
/-! SUPPORT. What a step and a run can do, once. -/

namespace Sys2Proof.Machine

/-- All a step can do, where it leaves a next state: hold the state, start a session, or perform a word. -/
theorem step_cases {s t : State} (h : step s = .next t) :
    (s.inputs = [] ∧ t = s)
    ∨ (∃ rest, s.inputs = .reset :: rest ∧ t = resetSession { s with inputs := rest })
    ∨ (∃ w rest, s.inputs = .request w :: rest ∧ performWord w { s with inputs := rest } = .next t) := by
  unfold step takeInput at h
  cases hi : s.inputs with
  | nil =>
    simp only [hi, Host.Outcome.next.injEq] at h
    exact .inl ⟨rfl, h.symm⟩
  | cons x rest =>
    cases x with
    | reset =>
      simp only [hi, Host.Outcome.next.injEq] at h
      exact .inr (.inl ⟨rest, rfl, h.symm⟩)
    | request w =>
      simp only [hi] at h
      exact .inr (.inr ⟨w, rest, rfl, h⟩)

/-- All performing a word can do, where it leaves a next state. -/
theorem performWord_cases {w : Word} {s t : State} (h : performWord w s = .next t) :
    (∃ i, decode w = some i ∧ exec i s = .next t) ∨ (decode w = none ∧ t = performIllegal w s) := by
  cases hd : decode w with
  | some i =>
    simp only [performWord, hd] at h
    exact .inl ⟨i, rfl, h⟩
  | none =>
    simp only [performWord, hd, Host.Outcome.next.injEq] at h
    exact .inr ⟨rfl, h.symm⟩

/-- A run of k + 1 steps is a step and a run of k. -/
theorem run_succ (k : Nat) (s t : core.State) (h : core.step s = .next t) : core.run (k + 1) s = core.run k t := by
  rw [Host.Core.run, h]

/-- A run that goes on took a step that goes on. -/
theorem run_succ_next {k : Nat} {s u : core.State} (h : core.run (k + 1) s = .next u) :
    ∃ t, core.step s = .next t ∧ core.run k t = .next u := by
  rw [Host.Core.run] at h
  cases e : core.step s with
  | next t => rw [e] at h; exact ⟨t, rfl, h⟩
  | fault r => rw [e] at h; cases h
  | refused r => rw [e] at h; cases h

end Sys2Proof.Machine
end

