-- ==== Sys2Proof/Tests/Slice0.lean ====
section
/-! SUPPORT. Tests: expected results are the vectors of spec/95_test_vectors.md (sections L1, L2) or words written out by
hand from spec/30_encoding.md R61 and R62. Witnesses: for every obligation with hypotheses, states and operands that meet
them, clause by clause. -/

namespace Sys2Proof.Tests

open Machine

/-- A start state ⟨DIV, CUR, PHASE, DATA_OWED, RX_OWED, none⟩ of the vectors; its buffer's cells hold no listed value. -/
def start (div : Option Half) (cur : Nat) (phase : Phase) (dataOwed rxOwed : Nat) : State :=
  { State.reset with div := div, cur := cur, phase := phase, dataOwed := dataOwed, rxOwed := rxOwed }

/-- s with one coming flush answer. -/
def withTx (a : TxAnswer) (s : State) : State := { s with txAnswers := [a] }

/-- s with one coming receive answer. -/
def withRx (a : RxAnswer) (s : State) : State := { s with rxAnswers := [a] }

/-- What a vector's end state shows, with the result: DIV, CUR, PHASE, DATA_OWED, RX_OWED, FAULT, FAULT_REQ. -/
def ends (a : Answer) (r : Result) (div : Option Half) (cur : Nat) (phase : Phase) (dataOwed rxOwed : Nat)
    (fault : Option FaultCode) (faultReq : Option Word) : Bool :=
  match a with
  | .next t => t.result == some r && t.div == div && t.cur == cur && t.phase == phase && t.dataOwed == dataOwed
      && t.rxOwed == rxOwed && t.fault == fault && t.faultReq == faultReq
  | .fault _ => false
  | .refused _ => false

/-- The unit the buffer holds after an answer. -/
def unitAfter : Answer → Option Bytes
  | .next t => some (unitOf t)
  | .fault _ => none
  | .refused _ => none

/-- Whether a step faults in the host's sense. -/
def stops : Answer → Bool
  | .next _ => false
  | .fault _ => true
  | .refused _ => false

/-! ### Well-formed words: one ill-formed word for each point of R64 -/

theorem test_reservedOp_refused : legalWord 0x00000000#32 = false ∧ legalWord 0xA0000000#32 = false
    ∧ legalWord 0xF0000000#32 = false := by decide

theorem test_reservedBits_refused : legalWord 0x1001012B#32 = false ∧ legalWord 0x88000000#32 = false := by decide

theorem test_strayOperand_refused : legalWord 0x20000001#32 = false ∧ legalWord 0x3000FFFF#32 = false
    ∧ legalWord 0x50000001#32 = false ∧ legalWord 0x70000080#32 = false ∧ legalWord 0x80000001#32 = false := by decide

theorem test_wideByte_refused : legalWord 0x40000100#32 = false ∧ legalWord 0x4000FFA0#32 = false := by decide

theorem test_legalWords_accepted : legalWord 0x400000FF#32 = true ∧ legalWord 0x60000002#32 = true
    ∧ legalWord 0x90000000#32 = true ∧ legalWord 0x1000FFFF#32 = true := by decide

/-! ### Well-formed LITS: one ill-formed instance for each checked point of R80 -/

/-- Point 2: a data command in the start sequence. -/
theorem test_lits_point2_refused :
    litsWF { refLits 0x00#8 0x00#8 with startSeq := [0x87#8] ++ (refLits 0x00#8 0x00#8).startSeq } = false := by decide

/-- Point 2 and R8: three repetitions where four are due; and beside four of one state two, five and eight of another. -/
theorem test_lits_point2_repeats_refused :
    litsWF { refLits 0x00#8 0x00#8 with startSeq := rep 3 (setCmd 0x03#8 0x13#8) } = false
    ∧ litsWF { refLits 0x00#8 0x00#8 with
        startSeq := rep 4 (setCmd 0x03#8 0x13#8) ++ rep 2 (setCmd 0x01#8 0x13#8) ++ setCmd 0x00#8 0x13#8 } = false
    ∧ litsWF { refLits 0x00#8 0x00#8 with
        startSeq := rep 4 (setCmd 0x03#8 0x13#8) ++ rep 5 (setCmd 0x01#8 0x13#8) ++ setCmd 0x00#8 0x13#8 } = false
    ∧ litsWF { refLits 0x00#8 0x00#8 with
        startSeq := rep 4 (setCmd 0x03#8 0x13#8) ++ rep 8 (setCmd 0x01#8 0x13#8) ++ setCmd 0x00#8 0x13#8 } = false := by
  decide +kernel

/-- Point 2 and R8: five repetitions, of each command beside a settling one or of one command alone, and eight. -/
theorem test_lits_point2_exact_refused :
    litsWF { refLits 0x00#8 0x00#8 with
        startSeq := rep 5 (setCmd 0x03#8 0x13#8) ++ rep 5 (setCmd 0x01#8 0x13#8) ++ setCmd 0x00#8 0x13#8 } = false
    ∧ litsWF { refLits 0x00#8 0x00#8 with startSeq := rep 5 (setCmd 0x03#8 0x13#8) } = false
    ∧ litsWF { refLits 0x00#8 0x00#8 with stopSeq := rep 8 (setCmd 0x01#8 0x13#8) ++ setCmd 0x00#8 0x10#8 } = false := by
  decide +kernel

/-- Point 2 and R8: five cycles, eight cycles, and five cycles of a command that each visits four times. -/
theorem test_lits_point2_cycles_refused :
    litsWF { refLits 0x00#8 0x00#8 with
        startSeq := rep 5 (setCmd 0x03#8 0x13#8 ++ setCmd 0x01#8 0x13#8) ++ setCmd 0x00#8 0x13#8 } = false
    ∧ litsWF { refLits 0x00#8 0x00#8 with
        startSeq := rep 8 (setCmd 0x03#8 0x13#8 ++ setCmd 0x01#8 0x13#8) ++ setCmd 0x00#8 0x13#8 } = false
    ∧ litsWF { refLits 0x00#8 0x00#8 with
        startSeq := rep 5 (rep 4 (setCmd 0x03#8 0x13#8) ++ rep 4 (setCmd 0x01#8 0x13#8)) ++ setCmd 0x00#8 0x13#8 }
      = false := by
  decide +kernel

/-- Point 3: start and stop end in the same byte. -/
theorem test_lits_point3_refused :
    litsWF { refLits 0x00#8 0x00#8 with stopSeq := (refLits 0x00#8 0x00#8).startSeq } = false := by decide

/-- Point 4: a byte-out head for two bytes, and a tail without the one-bit input. -/
theorem test_lits_point4_refused :
    litsWF { refLits 0x00#8 0x00#8 with boHead := [0x11#8, 0x01#8, 0x00#8] } = false
    ∧ litsWF { refLits 0x00#8 0x00#8 with boTail := setCmd 0x00#8 0x11#8 } = false := by decide

/-- Point 5: a read head for two bytes. -/
theorem test_lits_point5_refused :
    litsWF { refLits 0x00#8 0x00#8 with rdHead := [0x24#8, 0x01#8, 0x00#8] } = false := by decide

/-- Point 6: an empty loop group. -/
theorem test_lits_point6_refused : litsWF { refLits 0x00#8 0x00#8 with rdG1 := [] } = false := by decide

/-- Point 7: a response in the release, and in a loop group. -/
theorem test_lits_point7_refused :
    litsWF { refLits 0x00#8 0x00#8 with ackReleaseSeq := [0x22#8, 0x00#8] } = false
    ∧ litsWF { refLits 0x00#8 0x00#8 with rdG2 := [0x22#8, 0x00#8] } = false := by decide +kernel

/-- Point 7: three groups of one byte that read together as bit-in commands, and a group whose command runs on past the
end of READ's string. -/
theorem test_lits_point7_joined_refused :
    litsWF { refLits 0x00#8 0x00#8 with rdG0 := [0x22#8], rdG1 := [0x22#8], rdG2 := [0x22#8] } = false
    ∧ litsWF { refLits 0x00#8 0x00#8 with rdG2 := [0x80#8] } = false := by decide +kernel

/-- 90_conflicts.md C4: groups of one clock-toggle byte are admitted; C8: so are repetitions
that do not come first, and four cycles that settle in the state they end with. -/
theorem test_lits_freedom_accepted :
    litsWF { refLits 0x00#8 0x00#8 with rdG0 := [0x03#8], rdG1 := [0x01#8], rdG2 := [0x02#8] } = true
    ∧ litsWF { refLits 0x00#8 0x00#8 with
        startSeq := setCmd 0x03#8 0x13#8 ++ rep 4 (setCmd 0x01#8 0x13#8) ++ setCmd 0x00#8 0x13#8 } = true
    ∧ litsWF { refLits 0x00#8 0x00#8 with
        startSeq := rep 4 (setCmd 0x03#8 0x13#8 ++ setCmd 0x01#8 0x13#8 ++ setCmd 0x00#8 0x13#8) ++ setCmd 0x00#8 0x13#8 }
      = true :=
  ⟨litsWF_of_silentGroups (by decide) (by decide) (by decide) (by decide),
   litsWF_of_silentGroups (by decide) (by decide) (by decide) (by decide),
   litsWF_of_silentGroups (by decide) (by decide) (by decide) (by decide)⟩

/-- Point 2 and C8: four cycles that visit each of two states twice, in one order, in two and there and back; four
repetitions of each state, twice over, and of one beside four cycles that start in it; and four cycles that settle through a state of theirs. -/
theorem test_lits_cycles_accepted :
    litsWF { refLits 0x00#8 0x00#8 with
        startSeq := rep 4 (rep 2 (setCmd 0x03#8 0x13#8) ++ rep 2 (setCmd 0x01#8 0x13#8)) ++ setCmd 0x00#8 0x13#8 } = true
    ∧ litsWF { refLits 0x00#8 0x00#8 with
        startSeq := rep 3 (rep 2 (setCmd 0x03#8 0x13#8) ++ rep 2 (setCmd 0x01#8 0x13#8))
          ++ rep 2 (setCmd 0x01#8 0x13#8) ++ rep 2 (setCmd 0x03#8 0x13#8) ++ setCmd 0x00#8 0x13#8 } = true
    ∧ litsWF { refLits 0x00#8 0x00#8 with
        startSeq := rep 4 (setCmd 0x03#8 0x13#8 ++ setCmd 0x01#8 0x13#8 ++ setCmd 0x01#8 0x13#8 ++ setCmd 0x03#8 0x13#8)
          ++ setCmd 0x00#8 0x13#8 } = true
    ∧ litsWF { refLits 0x00#8 0x00#8 with
        startSeq := rep 2 (rep 4 (setCmd 0x03#8 0x13#8) ++ rep 4 (setCmd 0x01#8 0x13#8)) ++ setCmd 0x00#8 0x13#8 } = true
    ∧ litsWF { refLits 0x00#8 0x00#8 with
        startSeq := rep 4 (setCmd 0x03#8 0x13#8) ++ rep 4 (setCmd 0x03#8 0x13#8 ++ setCmd 0x01#8 0x13#8)
          ++ setCmd 0x00#8 0x13#8 } = true
    ∧ litsWF { refLits 0x00#8 0x00#8 with
        startSeq := rep 4 (setCmd 0x01#8 0x13#8 ++ setCmd 0x03#8 0x13#8) ++ setCmd 0x01#8 0x13#8 ++ setCmd 0x00#8 0x13#8 }
      = true :=
  ⟨litsWF_of_silentGroups (by decide +kernel) (by decide) (by decide) (by decide),
   litsWF_of_silentGroups (by decide +kernel) (by decide) (by decide) (by decide),
   litsWF_of_silentGroups (by decide +kernel) (by decide) (by decide) (by decide),
   litsWF_of_silentGroups (by decide +kernel) (by decide) (by decide) (by decide),
   litsWF_of_silentGroups (by decide +kernel) (by decide) (by decide) (by decide),
   litsWF_of_silentGroups (by decide +kernel) (by decide) (by decide) (by decide)⟩

/-- Point 8: the GPIO bits are not folded into the line states. -/
theorem test_lits_point8_refused : litsWF { refLits 0x00#8 0x00#8 with gpioDir := 0x80#8 } = false := by decide

/-- REF with GPIO bits folded in passes. -/
theorem test_lits_reference_accepted : litsWF (refLits 0x40#8 0xC0#8) = true :=
  litsWF_of_silentGroups (by decide) (by decide) (by decide) (by decide)

/-! ### Decoding: words written out from R61 and R62, one for each row of the opcode table (95_test_vectors.md L2.1) -/

theorem test_decode_configure : decode 0x1000012B#32 = some (.configure 299#16) := by decide
theorem test_decode_start : decode 0x20000000#32 = some .start := by decide
theorem test_decode_stop : decode 0x30000000#32 = some .stop := by decide
theorem test_decode_byteOut : decode 0x400000A1#32 = some (.byteOut 0xA1#8) := by decide
theorem test_decode_ackRelease : decode 0x50000000#32 = some .ackRelease := by decide
theorem test_decode_read : decode 0x60000001#32 = some (.read 1#16) := by decide
theorem test_decode_flush : decode 0x70000000#32 = some .flush := by decide
theorem test_decode_recvAck : decode 0x80000000#32 = some .recvAck := by decide
theorem test_decode_recv : decode 0x9000FFFF#32 = some (.recv 65535#16) := by decide

theorem test_decode_illegal : decode 0x00000000#32 = none ∧ decode 0x1001012B#32 = none ∧ decode 0x20000001#32 = none
    ∧ decode 0x40000100#32 = none ∧ decode 0x80010000#32 = none ∧ decode 0xFFFFFFFF#32 = none := by decide

theorem test_decodeTableWord : decodeTableWord 32 0x1000012B = some (.configure 299#16)
    ∧ decodeTableWord 32 0x0 = none := by decide

/-! ### Operands -/

/-- 95_test_vectors.md L1.1. -/
theorem test_addressByte : addressByte 0x50 false = 0xA0#8 ∧ addressByte 0x50 true = 0xA1#8 := by decide

/-- 95_test_vectors.md L1.4. -/
theorem test_loopCount : loopCount 6#16 = 0 ∧ loopCount 7#16 = 1 ∧ loopCount 21#16 = 1 ∧ loopCount 22#16 = 2
    ∧ loopCount 299#16 = 20 ∧ loopCount 1701#16 = 113 ∧ loopCount 1702#16 = 114 ∧ loopCount 65535#16 = 4369 := by decide

/-- 95_test_vectors.md L2.2: RdSeq(1). -/
theorem test_rdSeq : rdSeq reference.val 1
    = [0x24#8, 0x00#8, 0x00#8, 0x80#8, 0x02#8, 0x13#8, 0x80#8, 0x03#8, 0x13#8, 0x80#8, 0x02#8, 0x13#8] := by decide

/-! ### Requests: the rows of 95_test_vectors.md L2.3 and L2.4, one step each -/

/-- L2.4 row 2. -/
theorem test_configure : ends (exec (.configure 74#16) (start (some 299#16) 0 .open_ 0 0)) .ok (some 74#16) 0 .open_ 0 0
    none none = true := by decide

/-- L2.4 row 6. -/
theorem test_configure_releaseDue : ends (exec (.configure 299#16) (start none 0 .releaseDue 0 0))
    (.fault .ackReleaseOmitted) none 0 .releaseDue 0 0 (some .ackReleaseOmitted) (some 0x1000012B#32) = true := by decide

/-- L2.3 row 2. -/
theorem test_start_fits : ends (exec .start (start none 997 .open_ 0 0)) .ok none 1024 .open_ 0 0 none none = true := by
  decide

/-- L2.3 row 3. -/
theorem test_start_overflows : ends (exec .start (start none 998 .open_ 0 0)) (.fault .bufferOverflow) none 998 .open_
    0 0 (some .bufferOverflow) (some 0x20000000#32) = true := by decide

/-- L2.3 row 11. -/
theorem test_stop_keepsDebt : ends (exec .stop (start (some 299#16) 183 .open_ 1 0)) .ok (some 299#16) 210 .open_ 1 0
    none none = true := by decide

/-- L2.3, the bytes STOP appends. -/
theorem test_stop_bytes : unitAfter (exec .stop State.reset) = some (rep 4 [0x80#8, 0x01#8, 0x13#8]
    ++ rep 4 [0x80#8, 0x03#8, 0x13#8] ++ [0x80#8, 0x00#8, 0x10#8]) := by decide

/-- L2.3, the bytes BYTE_OUT 0x80 appends. -/
theorem test_byteOut_bytes : unitAfter (exec (.byteOut 0x80#8) State.reset) = some [0x11#8, 0x00#8, 0x00#8, 0x80#8,
    0x80#8, 0x00#8, 0x11#8, 0x22#8, 0x00#8, 0x87#8] := by decide

/-- L2.3 row 19: MIXED_RESPONSE before BUFFER_OVERFLOW. -/
theorem test_byteOut_mixed : ends (exec (.byteOut 0xA0#8) (start (some 299#16) 1020 .open_ 1 0))
    (.fault .mixedResponse) (some 299#16) 1020 .open_ 1 0 (some .mixedResponse) (some 0x400000A0#32) = true := by decide

/-- L2.3 row 20. -/
theorem test_ackRelease : ends (exec .ackRelease (start none 0 .releaseDue 0 0)) .ok none 3 .open_ 0 0 none none
    = true := by decide

/-- L2.3 row 24. -/
theorem test_ackRelease_early : ends (exec .ackRelease (start none 0 .ackInFlight 0 1)) (.fault .handshakeOrder) none 0
    .ackInFlight 0 1 (some .handshakeOrder) (some 0x50000000#32) = true := by decide

/-- L2.3 row 27. -/
theorem test_read : ends (exec (.read 1#16) (start (some 299#16) 183 .open_ 1 0)) .ok (some 299#16) 366 .open_ 2 0 none
    none = true := by decide +kernel

/-- L2.3 row 37: LOOP_COUNT_ZERO before BUFFER_OVERFLOW. -/
theorem test_read_loopCountZero : ends (exec (.read 1#16) (start (some 3#16) 1024 .open_ 0 0)) (.fault .loopCountZero)
    (some 3#16) 1024 .open_ 0 0 (some .loopCountZero) (some 0x60000001#32) = true := by decide

/-- L2.4 row 10: more accepted than was handed over. -/
theorem test_flush_wrongCount : ends (exec .flush (withTx (.ok 11) (start none 10 .ackQueued 0 0)))
    (.transportError (.flushAnswer (.ok 11))) none 0 .ackInFlight 0 1 none none = true := by decide

/-- L2.4 row 15: two owed reads. -/
theorem test_flush_reads : ends (exec .flush (withTx (.ok 396) (start (some 299#16) 396 .open_ 2 0))) (.sent 396)
    (some 299#16) 0 .dataInFlight 0 2 none none = true := by decide +kernel

/-- L2.4 row 22: bit 0 alone is the acknowledgement. -/
theorem test_recvAck_bitZero : ends (exec .recvAck (withRx (.ok [0xFE#8]) (start none 0 .ackInFlight 0 1)))
    (.ack true true) none 0 .releaseDue 0 0 none none = true := by decide

/-- L2.4 row 23. -/
theorem test_recvAck_undelivered : ends (exec .recvAck (withRx (.ok []) (start none 0 .ackInFlight 0 1)))
    (.ack false false) none 0 .open_ 0 0 none none = true := by decide

/-- L2.4 row 31. -/
theorem test_recv : ends (exec (.recv 2#16) (withRx (.ok [0x12#8, 0x34#8]) (start (some 299#16) 0 .dataInFlight 0 2)))
    (.data [0x12#8, 0x34#8]) (some 299#16) 0 .open_ 0 0 none none = true := by decide

/-- L2.4 row 32. -/
theorem test_recv_short : ends (exec (.recv 2#16) (withRx (.ok [0x12#8]) (start (some 299#16) 0 .dataInFlight 0 2)))
    (.transportError (.received [0x12#8])) (some 299#16) 0 .open_ 0 0 none none = true := by decide

/-- An illegal word, R64 and R113. -/
theorem test_illegal : ends (performWord 0x4000FFA0#32 State.reset) (.fault .illegalRequest) none 0 .open_ 0 0
    (some .illegalRequest) (some 0x4000FFA0#32) = true := by decide

/-- R114: an illegal word under a sticky fault returns the older one. -/
theorem test_sticky : ends (performWord 0x0#32 { State.reset with fault := some .divisorUnset, faultReq := some 0x60000001#32 })
    (.fault .divisorUnset) none 0 .open_ 0 0 (some .divisorUnset) (some 0x60000001#32) = true := by decide

/-- Step performs the word the host presents, and a reset clears the session (R123). -/
theorem test_step : ends (step (State.reset.withFetchWord 32 0x1000012B)) .ok (some 299#16) 0 .open_ 0 0 none none = true
    ∧ (match step { start (some 299#16) 10 .ackQueued 0 0 with inputs := [.reset] } with
      | .next t => decide (t = State.reset)
      | .fault _ => false
      | .refused _ => false) = true := by decide

/-- The memory at reset has the canonical form, a repeated address and one outside the buffer do not. -/
theorem test_memory_wf : State.reset.buf.wf = true ∧ Memory.wf [(3, 0#8), (3, 1#8)] = false
    ∧ Memory.wf [(5, 0#8), (3, 1#8)] = false ∧ Memory.wf [(1024, 0#8)] = false ∧ Memory.wf [(1023, 0#8)] = true := by
  decide

/-- Reset lists no cell, and the state after it meets the canonical form. -/
theorem test_reset_reads_nothing : State.reset.buf.read 0 = none ∧ State.reset.buf.read 1023 = none := by decide

/-- Assembler lines (95_test_vectors.md L2.6, R68). -/
theorem test_assemble : assembleLine "  BYTE_OUT 0xA0 ; address".toList = .word 0x400000A0#32
    ∧ assembleLine "; only a comment".toList = .blank ∧ assembleLine "BYTE_OUT 256".toList = .refused
    ∧ assembleLine "START 0".toList = .refused ∧ assembleLine "CONFIGURE 299".toList = .word 0x1000012B#32 := by decide

/-! ### Witnesses: encodings -/

theorem witness_DecodeOfEncode : decode 0x400000FF#32 = some (.byteOut 0xFF#8) := by decide

theorem witness_IllegalWordsFault : decode 0x00000000#32 = none ∧ State.reset.fault = none := by decide

theorem witness_DecodeReadsTheFields :
    (0xFFF#12 ≠ 0#12) ∧ (0x001#12 ≠ 0#12) ∧ ((0x0#4 = 0#4 ∨ 0xA#4 ≤ 0x0#4)) ∧ ((0xA#4 : BitVec 4) = 0#4 ∨ 0xA#4 ≤ 0xA#4)
    ∧ ((0xF#4 : BitVec 4) = 0#4 ∨ 0xA#4 ≤ 0xF#4)
    ∧ decode 0xA0000000#32 = none ∧ State.reset.fault = none := by decide

theorem witness_DecodeMatchesOpcodeTable : ∃ r ∈ opcodeTable, r.matchesWord 0x9000FFFF#32 = true :=
  ⟨⟨"RECV", 0x90000000#32, 0xFFFF0000#32⟩, by decide, by decide⟩

theorem witness_AddressByteFormula : 0x7F ≤ 0x7F ∧ (addressByte 0x7F true).toNat = 255 := by decide

theorem witness_AssemblerOperandRanges : "RECV_ACK" ∈ ["START", "STOP", "ACK_RELEASE", "FLUSH", "RECV_ACK"] := by decide

/-! ### Witnesses: the step, reset, the invariant -/

theorem witness_StepRunsTheNextInput :
    (∃ (s : State) (w : Word) (rest : List Input) (i : Instr), s.inputs = .request w :: rest ∧ decode w = some i)
    ∧ (∃ (s : State) (w : Word) (rest : List Input), s.inputs = .request w :: rest ∧ decode w = none)
    ∧ (∃ (s : State) (rest : List Input), s.inputs = .reset :: rest) ∧ (∃ s : State, s.inputs = [])
    ∧ 0xFFFFFFFF < 2 ^ 32 :=
  ⟨⟨{ State.reset with inputs := [.request 0x20000000#32] }, 0x20000000#32, [], .start, rfl, by decide⟩,
   ⟨{ State.reset with inputs := [.request 0xFFFFFFFF#32, .reset] }, 0xFFFFFFFF#32, [.reset], rfl, by decide⟩,
   ⟨{ State.reset with inputs := [.reset] }, [], rfl⟩, ⟨State.reset, rfl⟩, by decide⟩

theorem witness_ResetRestoresTheSession :
    { start (some 7#16) 10 .ackQueued 0 0 with fault := some .handshakeOrder, inputs := [.reset] }.inputs = .reset :: [] :=
  rfl

theorem witness_ResetKeepsTheEnvironment : ∃ (s t : State) (rest : List Input),
    s.inputs = .reset :: rest ∧ step s = .next t ∧ t.rxAnswers = [.ok [0x23#8]] :=
  ⟨{ withRx (.ok [0x23#8]) (start none 0 .dataInFlight 0 1) with inputs := [.reset] }, _, [], rfl, rfl, rfl⟩

/-- The invariant's instance with bytes buffered: four bytes and one READ's debt. -/
theorem blockInv_buffered : BlockInv { State.reset with buf := cellsFrom 0 (rep 4 [0#8]), cur := 4, dataOwed := 1 } := by
  constructor <;> first | decide | (intro n bs h; cases h)

theorem blockInv_queued : BlockInv { State.reset with buf := cellsFrom 0 (rep 10 [0#8]), cur := 10, phase := .ackQueued } := by
  constructor <;> first | decide | (intro n bs h; cases h)

theorem blockInv_releaseDue : BlockInv (start none 0 .releaseDue 0 0) := by
  constructor <;> first | decide | (intro n bs h; cases h)

theorem blockInv_started : BlockInv { State.reset with inputs := [.request 0x20000000#32] } := by
  constructor <;> first | decide | (intro n bs h; cases h)

theorem witness_StepKeepsInvariant : ∃ s t : State, BlockInv s ∧ step s = .next t ∧ t.cur = 27 :=
  ⟨_, _, blockInv_started, rfl, rfl⟩

theorem witness_EveryRunGoesOn : ∃ s : State, BlockInv s ∧ s.dataOwed = 1 := ⟨_, blockInv_buffered, rfl⟩

theorem witness_ParameterStays : ∃ s t : State, step s = .next t ∧ t.cur = 27 :=
  ⟨{ State.reset with inputs := [.request 0x20000000#32] }, _, rfl, rfl⟩

/-! ### Witnesses: faults -/

theorem witness_FaultEntryIsPrecise : ∃ (w : Word) (s t : State) (c : FaultCode),
    s.fault = none ∧ performWord w s = .next t ∧ t.fault = some c :=
  ⟨0x90000002#32, start none 0 .dataInFlight 0 1, _, .recvSizeMismatch, rfl, rfl, rfl⟩

theorem witness_FaultsAreSticky : ∃ (ws : List Word) (s : State) (c : FaultCode),
    s.fault = some c ∧ ws ≠ [] ∧ s.inputs = ws.map Input.request ++ [.reset] :=
  ⟨[0x50000000#32, 0x0#32],
   { State.reset with
     fault := some .bufferOverflow
     faultReq := some 0x20000000#32
     inputs := [.request 0x50000000#32, .request 0x0#32, .reset] },
   .bufferOverflow, rfl, by decide, rfl⟩

/-- Two causes apply, and then none. -/
theorem witness_LowestFaultCodeWins :
    (∃ (w : Word) (s t : State), s.fault = none ∧ performWord w s = .next t ∧ t.fault = some .loopCountZero
      ∧ wordCause w s .loopCountZero)
    ∧ (∃ (w : Word) (s t : State), s.fault = none ∧ performWord w s = .next t ∧ t.fault = none) :=
  ⟨⟨0x60000001#32, start (some 3#16) 1024 .open_ 0 0, _, rfl, rfl, rfl, ⟨1#16, 3#16, rfl, rfl, by decide⟩⟩,
   ⟨0x20000000#32, State.reset, _, rfl, rfl, rfl⟩⟩

theorem witness_AdmissionMatrix :
    ((start none 0 .dataInFlight 0 1).fault = none ∧ matrixCell .flush (start none 0 .dataInFlight 0 1).phase = some .handshakeOrder)
    ∧ ((start none 0 .releaseDue 0 0).fault = none ∧ (start none 0 .releaseDue 0 0).phase = .releaseDue
      ∧ Instr.flush ≠ .ackRelease)
    ∧ (∃ t, State.reset.fault = none ∧ matrixCell .start State.reset.phase = none
      ∧ exec .start State.reset = .next t) :=
  ⟨by decide, by decide, ⟨_, rfl, by decide, rfl⟩⟩

/-- A NACK, an undelivered handshake, an error of a flush. -/
theorem witness_ErrorResultsAreNotFaults :
    (∃ s t r, s.fault = none ∧ exec .recvAck s = .next t ∧ t.result = some r ∧ t.hist ≠ s.hist
      ∧ r.errorClass = .protocolNack)
    ∧ (∃ s t r, s.fault = none ∧ exec .recvAck s = .next t ∧ t.result = some r ∧ r.errorClass = .transportError)
    ∧ (∃ s t r, s.fault = none ∧ exec .flush s = .next t ∧ t.result = some r ∧ r.errorClass = .transportError) :=
  ⟨⟨withRx (.ok [0x01#8]) (start none 0 .ackInFlight 0 1), _, _, rfl, rfl, rfl, by decide, rfl⟩,
   ⟨withRx .err (start none 0 .ackInFlight 0 1), _, _, rfl, rfl, rfl, rfl⟩,
   ⟨withTx .err State.reset, _, _, rfl, rfl, rfl, rfl⟩⟩

theorem witness_ResultKinds :
    (∃ s t, exec .flush s = .next t ∧ t.fault = none) ∧ (∃ s t, exec .recvAck s = .next t ∧ t.fault = none)
    ∧ (∃ s t, exec (.recv 1#16) s = .next t ∧ t.fault = none) ∧ (∃ s t, exec (.configure 0#16) s = .next t ∧ t.fault = none)
    ∧ (∃ s t, exec .start s = .next t ∧ t.fault = none) ∧ (∃ s t, exec .stop s = .next t ∧ t.fault = none)
    ∧ (∃ s t, exec (.byteOut 0#8) s = .next t ∧ t.fault = none) ∧ (∃ s t, exec .ackRelease s = .next t ∧ t.fault = none)
    ∧ (∃ s t, exec (.read 1#16) s = .next t ∧ t.fault = none)
    ∧ (∃ s t, exec (.read 2#16) s = .next t ∧ t.fault = some .readLengthUnsupported) ∧ decode 0x0#32 = none :=
  ⟨⟨withTx (.ok 0) State.reset, _, rfl, rfl⟩, ⟨withRx (.ok []) (start none 0 .ackInFlight 0 1), _, rfl, rfl⟩,
   ⟨withRx (.ok []) (start none 0 .dataInFlight 0 1), _, rfl, rfl⟩, ⟨State.reset, _, rfl, rfl⟩, ⟨State.reset, _, rfl, rfl⟩,
   ⟨State.reset, _, rfl, rfl⟩, ⟨State.reset, _, rfl, rfl⟩, ⟨State.reset, _, rfl, rfl⟩,
   ⟨start (some 7#16) 0 .open_ 0 0, _, rfl, rfl⟩, ⟨State.reset, _, rfl, rfl⟩, by decide⟩

/-! ### Witnesses: the command buffer -/

theorem witness_AppendIsAllOrNothing :
    ((start none 1022 .open_ 0 0).cur + [1#8, 2#8, 3#8].length > Config.cap)
    ∧ ((start none 1021 .open_ 0 0).cur + [1#8, 2#8, 3#8].length ≤ Config.cap)
    ∧ (∃ t, exec .start State.reset = .next t ∧ t.fault = none
      ∧ stringOf State.reset.lits.val State.reset.div .start = some State.reset.lits.val.startSeq)
    ∧ (∃ t, exec .start (start none 998 .open_ 0 0) = .next t ∧ t.fault ≠ none) :=
  ⟨by decide, by decide, ⟨_, rfl, rfl, rfl⟩, ⟨_, rfl, by decide⟩⟩

theorem witness_AppendExtendsUnit : ∃ t, append (start none 1021 .open_ 0 0) [1#8, 2#8, 3#8] = .ok t := ⟨_, rfl⟩

theorem witness_NoByteIsLost : ∃ s t : State, BlockInv s ∧ exec .stop s = .next t ∧ t.fault = none ∧ s.fault = none :=
  ⟨_, _, blockInv_buffered, rfl, rfl, rfl⟩

theorem witness_NoByteIsLost_fault : ∃ s t : State, BlockInv s ∧ exec .stop s = .next t ∧ t.fault ≠ none :=
  ⟨_, _, blockInv_releaseDue, rfl, by decide⟩

theorem witness_ByteStreamOnlyGrows : ∃ s t : State, BlockInv s ∧ (∀ x ∈ s.inputs, x ≠ .reset) ∧ core.run 1 s = .next t
    ∧ t.cur = 27 :=
  ⟨_, _, blockInv_started, by decide, rfl, rfl⟩

/-- Two states that differ in the buffer, the phase's history and, for START, in DIV. -/
theorem witness_EncoderIsStateless :
    (∃ s s' t t' : State, s.lits = s'.lits ∧ s.div ≠ s'.div ∧ (stringOf s.lits.val s.div .start).isSome = true
      ∧ exec .start s = .next t ∧ exec .start s' = .next t' ∧ t.fault = none ∧ t'.fault = none)
    ∧ (∃ s s' t t' : State, s.lits = s'.lits ∧ s.div = s'.div ∧ s.cur ≠ s'.cur
      ∧ (stringOf s.lits.val s.div (.read 1#16)).isSome = true
      ∧ exec (.read 1#16) s = .next t ∧ exec (.read 1#16) s' = .next t' ∧ t.fault = none ∧ t'.fault = none) :=
  ⟨⟨State.reset, start (some 7#16) 27 .open_ 0 0, _, _, rfl, by decide, rfl, rfl, rfl, rfl, rfl⟩,
   ⟨start (some 7#16) 0 .open_ 0 0, start (some 7#16) 12 .open_ 1 0, _, _, rfl, rfl, by decide, rfl, rfl, rfl, rfl, rfl⟩⟩

/-! ### Witnesses: the bus primitives, at the last CUR that fits and the first that does not -/

theorem witness_StartAppendsStartSequence :
    (∃ s : State, s.fault = none ∧ s.phase = .open_ ∧ s.cur + s.lits.val.startSeq.length ≤ Config.cap ∧ s.cur = 997)
    ∧ (∃ s : State, s.fault = none ∧ s.phase = .open_ ∧ s.cur + s.lits.val.startSeq.length > Config.cap ∧ s.cur = 998)
    ∧ (∃ s : State, s.fault = none ∧ s.phase = .releaseDue) ∧ (∃ s : State, s.fault = none ∧ s.phase = .dataInFlight)
    ∧ (∃ w : Word, opField w = 0x2#4 ∧ argField w ≠ 0#16) ∧ (∃ w : Word, opField w = 0x2#4 ∧ rsvField w ≠ 0#12)
    ∧ (∃ s : State, s.lits = reference) :=
  ⟨⟨start none 997 .open_ 0 0, by decide⟩, ⟨start none 998 .open_ 0 0, by decide⟩, ⟨start none 0 .releaseDue 0 0, by decide⟩,
   ⟨start none 0 .dataInFlight 0 1, by decide⟩, ⟨0x20000001#32, by decide⟩, ⟨0x28000000#32, by decide⟩, ⟨State.reset, rfl⟩⟩

theorem witness_StopAppendsStopSequence :
    (∃ s : State, s.fault = none ∧ s.phase = .open_ ∧ s.cur + s.lits.val.stopSeq.length ≤ Config.cap ∧ s.cur = 997)
    ∧ (∃ s : State, s.fault = none ∧ s.phase = .open_ ∧ s.cur + s.lits.val.stopSeq.length > Config.cap ∧ s.cur = 998)
    ∧ (∃ s : State, s.fault = none ∧ s.phase = .releaseDue) ∧ (∃ s : State, s.fault = none ∧ s.phase = .ackQueued)
    ∧ (∃ w : Word, opField w = 0x3#4 ∧ argField w ≠ 0#16) ∧ (∃ w : Word, opField w = 0x3#4 ∧ rsvField w ≠ 0#12) :=
  ⟨⟨start none 997 .open_ 0 0, by decide⟩, ⟨start none 998 .open_ 0 0, by decide⟩, ⟨start none 0 .releaseDue 0 0, by decide⟩,
   ⟨start none 10 .ackQueued 0 0, by decide⟩, ⟨0x30008000#32, by decide⟩, ⟨0x30010000#32, by decide⟩⟩

theorem witness_ByteOutAppendsTheByte :
    (∃ s : State, s.fault = none ∧ s.phase = .open_ ∧ s.dataOwed = 0 ∧ s.cur = 1014
      ∧ s.cur + (s.lits.val.boHead.length + 1 + s.lits.val.boTail.length) ≤ Config.cap)
    ∧ (∃ s : State, s.fault = none ∧ s.phase = .open_ ∧ s.dataOwed > 0 ∧ s.cur = 1020)
    ∧ (∃ s : State, s.fault = none ∧ s.phase = .open_ ∧ s.dataOwed = 0 ∧ s.cur = 1015
      ∧ s.cur + (s.lits.val.boHead.length + 1 + s.lits.val.boTail.length) > Config.cap)
    ∧ (∃ s : State, s.fault = none ∧ s.phase = .releaseDue) ∧ (∃ s : State, s.fault = none ∧ s.phase = .ackInFlight)
    ∧ (∃ w : Word, opField w = 0x4#4 ∧ (argField w).extractLsb' 8 8 ≠ 0#8)
    ∧ (∃ w : Word, opField w = 0x4#4 ∧ rsvField w ≠ 0#12)
    ∧ (∃ s t : State, s.fault = none ∧ s.phase = .ackQueued ∧ exec .flush s = .next t ∧ t.fault = none)
    ∧ (∃ s t : State, s.phase = .open_ ∧ exec (.byteOut 0xFF#8) s = .next t ∧ t.phase ≠ .open_) :=
  ⟨⟨start none 1014 .open_ 0 0, by decide⟩, ⟨start none 1020 .open_ 1 0, by decide⟩, ⟨start none 1015 .open_ 0 0, by decide⟩,
   ⟨start none 0 .releaseDue 0 0, by decide⟩, ⟨start none 0 .ackInFlight 0 1, by decide⟩, ⟨0x40000100#32, by decide⟩,
   ⟨0x40010000#32, by decide⟩, ⟨withTx (.ok 10) (start none 10 .ackQueued 0 0), _, rfl, rfl, rfl, rfl⟩,
   ⟨State.reset, _, rfl, rfl, by decide⟩⟩

theorem witness_AckReleaseAppendsRelease :
    (∃ s : State, s.fault = none ∧ s.phase = .open_ ∧ s.cur + s.lits.val.ackReleaseSeq.length ≤ Config.cap ∧ s.cur = 1021)
    ∧ (∃ s : State, s.fault = none ∧ s.phase = .releaseDue ∧ s.cur + s.lits.val.ackReleaseSeq.length ≤ Config.cap)
    ∧ (∃ s : State, s.fault = none ∧ s.phase = .open_ ∧ s.cur + s.lits.val.ackReleaseSeq.length > Config.cap ∧ s.cur = 1022)
    ∧ (∃ s : State, s.fault = none ∧ s.phase = .ackQueued)
    ∧ (∃ w : Word, opField w = 0x5#4 ∧ argField w ≠ 0#16) ∧ (∃ w : Word, opField w = 0x5#4 ∧ rsvField w ≠ 0#12)
    ∧ (∃ s : State, BlockInv s ∧ s.phase = .releaseDue)
    ∧ (∃ (s : State) (h : Byte), s.fault = none ∧ s.phase = .ackInFlight ∧ nextRxAnswer 1 s = .ok [h] ∧ h = 0x01#8) :=
  ⟨⟨start none 1021 .open_ 0 0, by decide⟩, ⟨start none 0 .releaseDue 0 0, by decide⟩, ⟨start none 1022 .open_ 0 0, by decide⟩,
   ⟨start none 10 .ackQueued 0 0, by decide⟩, ⟨0x50000001#32, by decide⟩, ⟨0x58000000#32, by decide⟩,
   ⟨_, blockInv_releaseDue, rfl⟩, ⟨withRx (.ok [0x01#8]) (start none 0 .ackInFlight 0 1), 0x01#8, by decide⟩⟩

theorem witness_ReadAppendsReadSequence :
    (∃ (d : Half) (s : State), s.fault = none ∧ s.phase = .open_ ∧ s.div = some d ∧ loopCount d ≠ 0 ∧ d = 7#16
      ∧ s.cur + (rdSeq s.lits.val (loopCount d)).length ≤ Config.cap)
    ∧ (∃ (d : Half) (s : State), s.fault = none ∧ s.phase = .open_ ∧ s.div = some d ∧ loopCount d ≠ 0 ∧ s.cur = 1013
      ∧ s.cur + (rdSeq s.lits.val (loopCount d)).length > Config.cap)
    ∧ ((0#16 : Half) ≠ 1#16 ∧ (65535#16 : Half) ≠ 1#16) ∧ (start none 0 .open_ 0 0).div = none
    ∧ (∃ (d : Half) (s : State), s.fault = none ∧ s.phase = .open_ ∧ s.div = some d ∧ d.toNat ≤ 6 ∧ d = 6#16)
    ∧ (∃ s : State, s.fault = none ∧ s.phase = .releaseDue) ∧ (∃ s : State, s.fault = none ∧ s.phase = .ackQueued)
    ∧ (∃ w : Word, opField w = 0x6#4 ∧ rsvField w ≠ 0#12)
    ∧ (∃ (d : Half) (s t : State), exec (.configure d) s = .next t ∧ s.dataOwed = 1) ∧ State.reset.lits = reference
    ∧ State.reset.cur = 0 :=
  ⟨⟨7#16, start (some 7#16) 1012 .open_ 0 0, by decide⟩, ⟨7#16, start (some 7#16) 1013 .open_ 0 0, by decide⟩, by decide,
   by decide, ⟨6#16, start (some 6#16) 0 .open_ 0 0, by decide⟩, ⟨start none 0 .releaseDue 0 0, by decide⟩,
   ⟨start none 10 .ackQueued 0 0, by decide⟩, ⟨0x60010001#32, by decide⟩,
   ⟨74#16, start (some 299#16) 183 .open_ 1 0, _, rfl, rfl⟩, rfl, rfl⟩

theorem witness_LoopCountRange :
    (6#16 : Half).toNat ≤ 6 ∧ 7 ≤ (7#16 : Half).toNat ∧ (21#16 : Half).toNat ≤ (22#16 : Half).toNat
    ∧ (∃ (d : Half) (s : State), s.fault = none ∧ s.phase = .open_ ∧ s.div = some d ∧ d.toNat ≤ 6) :=
  ⟨by decide, by decide, by decide, ⟨6#16, start (some 6#16) 0 .open_ 0 0, by decide⟩⟩

theorem witness_ReadCapacityUnderRef :
    (∃ (d : Half) (s : State), s.lits = reference ∧ s.fault = none ∧ s.phase = .open_ ∧ s.div = some d ∧ 1702 ≤ d.toNat
      ∧ d = 1702#16)
    ∧ (∃ (d : Half) (s : State), s.lits = reference ∧ s.fault = none ∧ s.phase = .open_ ∧ s.div = some d ∧ 7 ≤ d.toNat
      ∧ d.toNat ≤ 1701 ∧ s.cur + 3 + 9 * loopCount d ≤ Config.cap ∧ d = 1701#16) :=
  ⟨⟨1702#16, start (some 1702#16) 0 .open_ 0 0, by decide⟩, ⟨1701#16, start (some 1701#16) 4 .open_ 0 0, by decide⟩⟩

/-! ### Witnesses: session and transport requests -/

theorem witness_ConfigureLatchesTheDivisor :
    (∃ s : State, s.fault = none ∧ s.phase = .open_ ∧ s.div = some 299#16 ∧ s.cur = 27)
    ∧ (∃ s : State, s.fault = none ∧ s.phase = .releaseDue) ∧ (∃ s : State, s.fault = none ∧ s.phase = .ackQueued)
    ∧ (∃ w : Word, opField w = 0x1#4 ∧ rsvField w ≠ 0#12)
    ∧ (∃ (d n : Half) (s t : State), d.toNat ≤ 6 ∧ s.div = some d ∧ exec (.read n) s = .next t ∧ d = 6#16) :=
  ⟨⟨start (some 299#16) 27 .open_ 0 0, by decide⟩, ⟨start none 0 .releaseDue 0 0, by decide⟩,
   ⟨start none 10 .ackQueued 0 0, by decide⟩, ⟨0x1001012B#32, by decide⟩,
   ⟨6#16, 1#16, start (some 6#16) 0 .open_ 0 0, _, by decide, rfl, rfl, rfl⟩⟩

theorem witness_FlushSendsTheUnit :
    (∃ s : State, s.fault = none ∧ s.phase = .ackQueued ∧ s.cur ≤ Config.cap ∧ nextTxAnswer s = .ok s.cur ∧ s.cur = 1024)
    ∧ (∃ s : State, s.fault = none ∧ s.phase = .open_ ∧ 0 < s.dataOwed ∧ s.cur ≤ Config.cap ∧ nextTxAnswer s ≠ .ok s.cur)
    ∧ (∃ s : State, s.fault = none ∧ s.phase = .open_ ∧ s.dataOwed = 0 ∧ s.cur ≤ Config.cap ∧ s.cur = 0)
    ∧ (∃ (s : State) (a : Nat) (b : Byte), a < s.cur ∧ s.buf.read a = some b)
    ∧ (∃ s : State, s.fault = none ∧ s.phase = .releaseDue) ∧ (∃ s : State, s.fault = none ∧ s.phase = .dataInFlight)
    ∧ (∃ w : Word, opField w = 0x7#4 ∧ argField w ≠ 0#16) ∧ (∃ w : Word, opField w = 0x7#4 ∧ rsvField w ≠ 0#12)
    ∧ (∃ s : State, BlockInv s ∧ s.phase = .ackQueued) :=
  ⟨⟨withTx (.ok 1024) (start none 1024 .ackQueued 0 0), by decide⟩, ⟨withTx .err (start none 12 .open_ 1 0), by decide⟩,
   ⟨State.reset, by decide⟩, ⟨{ State.reset with buf := [(0, 7#8)], cur := 1 }, 0, 7#8, by decide⟩,
   ⟨start none 0 .releaseDue 0 0, by decide⟩, ⟨start none 0 .dataInFlight 0 1, by decide⟩, ⟨0x70000080#32, by decide⟩,
   ⟨0x78000000#32, by decide⟩, ⟨_, blockInv_queued, rfl⟩⟩

theorem witness_OnlyFlushOutsideRangeStops :
    (∃ s : State, s.fault = none ∧ s.phase = .open_ ∧ Config.cap < s.cur ∧ s.cur = 1025)
    ∧ (∃ s : State, exec .flush s = .fault (.addressOutsideBuffer 1024)) :=
  ⟨⟨start none 1025 .open_ 0 0, by decide⟩, ⟨start none 1025 .open_ 0 0, rfl⟩⟩

theorem witness_RecvAckDecodesTheHandshake :
    (∃ s : State, s.fault = none ∧ s.phase = .ackInFlight ∧ nextRxAnswer 1 s = .ok [0x01#8])
    ∧ (∃ s : State, s.fault = none ∧ s.phase = .ackInFlight ∧ nextRxAnswer 1 s = .ok [])
    ∧ (∃ s : State, s.fault = none ∧ s.phase = .ackInFlight ∧ nextRxAnswer 1 s = .err)
    ∧ (∃ s : State, s.fault = none ∧ s.phase = .releaseDue) ∧ (∃ s : State, s.fault = none ∧ s.phase = .open_)
    ∧ (∃ w : Word, opField w = 0x8#4 ∧ argField w ≠ 0#16) ∧ (∃ w : Word, opField w = 0x8#4 ∧ rsvField w ≠ 0#12) :=
  ⟨⟨withRx (.ok [0x01#8]) (start none 0 .ackInFlight 0 1), by decide⟩, ⟨withRx (.ok []) (start none 0 .ackInFlight 0 1), by decide⟩,
   ⟨withRx .err (start none 0 .ackInFlight 0 1), by decide⟩, ⟨start none 0 .releaseDue 0 0, by decide⟩,
   ⟨State.reset, by decide⟩, ⟨0x80000001#32, by decide⟩, ⟨0x80010000#32, by decide⟩⟩

theorem witness_RecvReturnsTheData :
    (∃ (n : Half) (s : State), s.fault = none ∧ s.phase = .dataInFlight ∧ n.toNat = s.rxOwed
      ∧ nextRxAnswer n.toNat s = .ok [0x12#8, 0x34#8])
    ∧ (∃ (n : Half) (s : State), s.fault = none ∧ s.phase = .dataInFlight ∧ n.toNat = s.rxOwed
      ∧ nextRxAnswer n.toNat s = .ok [])
    ∧ (∃ (n : Half) (s : State), s.fault = none ∧ s.phase = .dataInFlight ∧ n.toNat = s.rxOwed
      ∧ nextRxAnswer n.toNat s = .err)
    ∧ (∃ (n : Half) (s : State), s.fault = none ∧ s.phase = .dataInFlight ∧ n.toNat ≠ s.rxOwed ∧ n = 0#16)
    ∧ (∃ s : State, s.fault = none ∧ s.phase = .releaseDue) ∧ (∃ s : State, s.fault = none ∧ s.phase = .ackInFlight)
    ∧ (∃ w : Word, opField w = 0x9#4 ∧ rsvField w ≠ 0#12) :=
  ⟨⟨2#16, withRx (.ok [0x12#8, 0x34#8]) (start none 0 .dataInFlight 0 2), by decide⟩,
   ⟨1#16, withRx (.ok []) (start none 0 .dataInFlight 0 1), by decide⟩,
   ⟨1#16, withRx .err (start none 0 .dataInFlight 0 1), by decide⟩, ⟨0#16, start none 0 .dataInFlight 0 1, by decide⟩,
   ⟨start none 0 .releaseDue 0 0, by decide⟩, ⟨start none 0 .ackInFlight 0 1, by decide⟩, ⟨0x98000001#32, by decide⟩⟩

theorem witness_HandshakeReadsBitZero :
    ((0x00#8 : Byte).getLsbD 0 = (0xFE#8 : Byte).getLsbD 0 ∧ (0x00#8 : Byte).getLsbD 0 = false)
    ∧ ((0x01#8 : Byte).getLsbD 0 = (0xFF#8 : Byte).getLsbD 0 ∧ (0x01#8 : Byte).getLsbD 0 = true) := by decide

theorem witness_TransportAnswersAreDraws :
    (∃ (s : State) (bs : Bytes), nextRxAnswer 2 s = .ok bs ∧ bs ≠ []) ∧ [0x12#8, 0x34#8].length ≤ 2 :=
  ⟨⟨withRx (.ok [0x12#8, 0x34#8, 0x56#8]) State.reset, [0x12#8, 0x34#8], by decide⟩, by decide⟩

theorem witness_HistoryRecordsEveryCall :
    (∃ s t, exec .flush s = .next t ∧ t.fault = none ∧ t.hist ≠ s.hist)
    ∧ (∃ s t, exec .recvAck s = .next t ∧ t.fault = none ∧ t.hist ≠ s.hist)
    ∧ (∃ s t, exec (.recv 1#16) s = .next t ∧ t.fault = none ∧ t.hist ≠ s.hist)
    ∧ (∃ s t, exec .start s = .next t ∧ t.fault = none ∧ t.hist = s.hist)
    ∧ (∃ s t, exec .flush s = .next t ∧ t.fault ≠ none) :=
  ⟨⟨withTx (.ok 0) State.reset, _, rfl, rfl, by decide⟩,
   ⟨withRx .err (start none 0 .ackInFlight 0 1), _, rfl, rfl, by decide⟩,
   ⟨withRx .err (start none 0 .dataInFlight 0 1), _, rfl, rfl, by decide⟩, ⟨State.reset, _, rfl, rfl, rfl⟩,
   ⟨start none 0 .releaseDue 0 0, _, rfl, by decide⟩⟩

/-! ### Witnesses: whole-machine rules -/

theorem witness_PhaseTransitions : ∃ s t, exec (.byteOut 0#8) s = .next t ∧ t.phase ≠ s.phase :=
  ⟨State.reset, _, rfl, by decide⟩

theorem witness_WrittenOnlyByItsWriters :
    (∃ s t, exec (.configure 7#16) s = .next t ∧ t.div ≠ s.div)
    ∧ (∃ s t, exec .start s = .next t ∧ t.buf ≠ s.buf ∧ t.cur ≠ s.cur)
    ∧ (∃ s t, exec (.byteOut 0#8) s = .next t ∧ t.phase ≠ s.phase)
    ∧ (∃ s t, exec (.read 1#16) s = .next t ∧ t.dataOwed ≠ s.dataOwed)
    ∧ (∃ s t, exec .recvAck s = .next t ∧ t.rxOwed ≠ s.rxOwed ∧ t.hist ≠ s.hist)
    ∧ (∃ s t, exec .recvAck s = .next t ∧ t.fault ≠ s.fault ∧ t.faultReq ≠ s.faultReq) :=
  ⟨⟨State.reset, _, rfl, by decide⟩, ⟨State.reset, _, rfl, by decide, by decide⟩,
   ⟨State.reset, _, rfl, by decide⟩, ⟨start (some 7#16) 0 .open_ 0 0, _, rfl, by decide⟩,
   ⟨withRx .err (start none 0 .ackInFlight 0 1), _, rfl, by decide, by decide⟩,
   ⟨State.reset, _, rfl, by decide, by decide⟩⟩

theorem blockInv_clean : BlockInv State.reset := by
  constructor <;> first | decide | (intro n bs h; cases h)

theorem witness_CleanEndOwesNothing :
    (∃ s : State, BlockInv s ∧ cleanEnd s = true) ∧ (∃ s : State, s.fault = some FaultCode.illegalRequest) :=
  ⟨⟨_, blockInv_clean, rfl⟩, ⟨{ State.reset with fault := some .illegalRequest }, rfl⟩⟩

/-! ### Witnesses: the caller's sequences -/

/-- A handshake byte that comes, and one that does not; the last CUR that fits. -/
theorem witness_SendByteExpansion :
    (∃ s : State, s.fault = none ∧ s.phase = .open_ ∧ s.dataOwed = 0
      ∧ s.cur + (byteOutSeq s.lits.val 0xA0#8).length ≤ Config.cap ∧ s.lits.val.ackReleaseSeq.length ≤ Config.cap
      ∧ s.cur = 1014)
    ∧ handshakeSampled (.ok [0x01#8]) = true ∧ handshakeSampled .err = false :=
  ⟨⟨start none 1014 .open_ 0 0, by decide⟩, by decide, by decide⟩

/-- The last CUR that fits, with the handshake of each of the three SENDs failing. -/
theorem witness_WriteRegEndsUndelivered :
    ∀ rx ∈ [[RxAnswer.err], [.ok [0x01#8], .ok []], [.ok [0x00#8], .ok [0xFF#8], .err]],
      ∃ s : State, s.fault = none ∧ s.phase = .open_ ∧ s.dataOwed = 0 ∧ s.cur = 987
        ∧ s.cur + (s.lits.val.startSeq.length + (byteOutSeq s.lits.val (addressByte 0x50 false)).length) ≤ Config.cap
        ∧ s.lits.val.ackReleaseSeq.length + (byteOutSeq s.lits.val 0x5A#8).length ≤ Config.cap ∧ s.rxAnswers = rx :=
  fun rx _ => ⟨{ start none 987 .open_ 0 0 with rxAnswers := rx }, rfl, rfl, rfl, rfl,
    show 987 + (reference.val.startSeq.length + (byteOutSeq reference.val (addressByte 0x50 false)).length) ≤ Config.cap by
      decide,
    show reference.val.ackReleaseSeq.length + (byteOutSeq reference.val 0x5A#8).length ≤ Config.cap by decide, rfl⟩

/-! ### Witnesses: response counts -/

/-- The first loop count and, under REF, the last that fits. -/
theorem witness_LitsResponseCounts :
    1 ≤ 1 ∧ (rdSeq reference.val 1).length ≤ Config.cap ∧ 1 ≤ 113 ∧ (rdSeq reference.val 113).length ≤ Config.cap := by
  decide +kernel

/-- BYTE_OUT's ten bytes under REF, buffered. -/
def byteOutBuffered : State :=
  withTx (.ok 10) { State.reset with buf := cellsFrom 0 (byteOutSeq reference.val 0xA0#8), cur := 10, phase := .ackQueued }

theorem blockInv_byteOutBuffered : BlockInv byteOutBuffered := by
  constructor <;> first | decide | (intro n bs h; cases h)

theorem witness_OwedMatchesTheUnit :
    (∃ s t : State, BlockInv s ∧ BufferOwes s ∧ step s = .next t ∧ t.cur = 27)
    ∧ (∃ s t : State, BlockInv s ∧ BufferOwes s ∧ exec .flush s = .next t ∧ t.fault = none ∧ t.rxOwed = 1) :=
  ⟨⟨_, _, blockInv_started, rfl, rfl, rfl⟩,
    ⟨byteOutBuffered, _, blockInv_byteOutBuffered,
      show responseCount (unitOf byteOutBuffered) = some 1 by decide +kernel, rfl, rfl, rfl⟩⟩

/-! ### Witnesses: repetitions -/

theorem witness_LitsRepeatsAreExact : ∃ (l : AdmittedLits) (bs : Bytes), bs = l.val.startSeq ∨ bs = l.val.stopSeq :=
  ⟨reference, _, .inr rfl⟩

end Sys2Proof.Tests
end

section
/-! The state after reset (spec/10_state.md section 8, R37). -/

namespace Sys2Proof.Machine

/-- No buffer cell holds a value after reset (R37). -/
theorem resetOf_buf_read (l : AdmittedLits) (a : Nat) : (State.resetOf l).buf.read a = none := by
  rw [resetOf_buf, read_nil]

/-- Settles O12, row by row of R37's table. -/
theorem resetValues : Obligations.ResetValues := by
  intro l
  exact ⟨resetOf_div l, resetOf_buf_read l, resetOf_cur l, resetOf_phase l, resetOf_dataOwed l, resetOf_rxOwed l,
    resetOf_fault l, resetOf_faultReq l, resetOf_hist l⟩

end Sys2Proof.Machine
end

section
/-! The command buffer and who writes it (spec/20_memory.md R45). -/

namespace Sys2Proof.Machine

/-- Append's write changes nothing but the buffer and CUR. -/
theorem pushed_encoderFrame (s : State) (bs : Bytes) : EncoderFrame s (pushed s bs) where
  div := rfl
  rxOwed := rfl
  fault := rfl
  faultReq := rfl
  hist := rfl
  environment := ⟨rfl, rfl, rfl, rfl, rfl⟩

/-- What stands appended is told by the buffer and CUR alone. -/
theorem Appended.congr {s t u : State} {bs : Bytes} (h : Appended s t bs) (hb : u.buf = t.buf) (hc : u.cur = t.cur) :
    Appended s u bs where
  cursor := hc.trans h.cursor
  stored k b hk := by rw [hb]; exact h.stored k b hk
  elsewhere a ha := by rw [hb]; exact h.elsewhere a ha

/-- A request that completes and has a string has appended it, once: for READ, DIV was set, so the string is RdSeq of its
loop count (R99). -/
theorem appended_of_completes {i : Instr} {s t : State} {bs : Bytes} (hs : stringOf s.lits.val s.div i = some bs)
    (h : Completes i s t) : Appended s t bs := by
  cases i with
  | start => cases hs; obtain ⟨-, rfl⟩ := h; exact (pushed_appended s _).congr rfl rfl
  | stop => cases hs; obtain ⟨-, rfl⟩ := h; exact (pushed_appended s _).congr rfl rfl
  | byteOut b => cases hs; obtain ⟨-, -, rfl⟩ := h; exact (pushed_appended s _).congr rfl rfl
  | ackRelease => cases hs; obtain ⟨-, rfl⟩ := h; exact (pushed_appended s _).congr rfl rfl
  | read n =>
    obtain ⟨d, -, hd, -, -, rfl⟩ := h
    rw [hd] at hs; cases hs
    exact (pushed_appended s _).congr rfl rfl
  | configure d => cases hs
  | flush => cases hs
  | recvAck => cases hs
  | recv n => cases hs

/-- A request that completes and has no string leaves the buffer's cells: CONFIGURE and the transport requests, since a READ
without a divisor does not complete. -/
theorem buf_of_completes {i : Instr} {s t : State} (hs : stringOf s.lits.val s.div i = none) (h : Completes i s t) :
    t.buf = s.buf := by
  cases i with
  | configure d => rw [h]; rfl
  | flush => rw [h.2]; rfl
  | recvAck => rw [h]; rfl
  | recv n => rw [h.2]; rfl
  | read n =>
    obtain ⟨d, -, hd, -, -, -⟩ := h
    rw [hd] at hs; cases hs
  | start => cases hs
  | stop => cases hs
  | byteOut b => cases hs
  | ackRelease => cases hs

/-- A request ends with FAULT set and the buffer and CUR as they were (R113, R114), or without a fault and completed. -/
theorem exec_faulted_or_completed {i : Instr} {s t : State} (h : exec i s = .next t) :
    (t.fault ≠ none ∧ t.buf = s.buf ∧ t.cur = s.cur) ∨ (t.fault = none ∧ Completes i s t) := by
  rcases exec_cases h with ⟨c, hf, rfl⟩ | ⟨c, -, -, -, rfl⟩ | ⟨hf, -, hc⟩
  · exact .inl ⟨by simp [hf], rfl, rfl⟩
  · exact .inl ⟨by simp, rfl, rfl⟩
  · exact .inr ⟨(completes_fault hc).trans hf, hc⟩

/-- Settles O23: the capacity check comes before any write, and a request's own end is fault entry, which writes no cell,
or a completion, which appends its string where it has one. -/
theorem appendIsAllOrNothing : Obligations.AppendIsAllOrNothing := by
  refine ⟨fun s bs h => append_of_overflow h, fun s bs h => ?fits, fun i s t h => ?oneString, fun i s t bs hs h => ?ends⟩
  case fits =>
    exact ⟨pushed s bs, append_of_fits h, pushed_appended s bs, pushed_encoderFrame s bs, rfl, rfl, rfl⟩
  case oneString =>
    rcases exec_faulted_or_completed h with ⟨-, hbuf, -⟩ | ⟨-, hc⟩
    · exact .inl hbuf
    · cases hs : stringOf s.lits.val s.div i with
      | none => exact .inl (buf_of_completes hs hc)
      | some bs => exact .inr ⟨bs, rfl, appended_of_completes hs hc⟩
  case ends =>
    rcases exec_faulted_or_completed h with ⟨hf, hkept⟩ | ⟨hf, hc⟩
    · exact ⟨fun hno => absurd hno hf, fun _ => hkept⟩
    · exact ⟨fun _ => appended_of_completes hs hc, fun hno => absurd hf hno⟩

end Sys2Proof.Machine
end

section
/-! Decoding over the fields of a word (spec/30_encoding.md R64, R65). -/

namespace Sys2Proof

/-! ### R65, case by case -/

theorem decode_of_reservedBits {w : Word} (h : rsvField w ≠ 0#12) : decode w = none := if_pos h

/-- The five operand-less requests, by one argument. -/
theorem decode_operandless {i : Instr} (h : opcodeOf i ∈ operandless) (arg : Half) :
    decode (opcodeOf i ++ 0#12 ++ arg) = noOperand arg i := by
  simp only [decode, rsvField_append, opField_append, argField_append]
  cases i with
  | start => rfl
  | stop => rfl
  | ackRelease => rfl
  | flush => rfl
  | recvAck => rfl
  | configure d => simp [opcodeOf, operandless] at h
  | byteOut b => simp [opcodeOf, operandless] at h
  | read n => simp [opcodeOf, operandless] at h
  | recv n => simp [opcodeOf, operandless] at h

theorem decode_configure (arg : Half) : decode (0x1#4 ++ 0#12 ++ arg) = some (.configure arg) := by
  simp only [decode, rsvField_append, opField_append, argField_append]; rfl

theorem decode_byteOut (arg : Half) : decode (0x4#4 ++ 0#12 ++ arg)
    = if arg.extractLsb' 8 8 = 0#8 then some (.byteOut (arg.extractLsb' 0 8)) else none := by
  simp only [decode, rsvField_append, opField_append, argField_append]; rfl

theorem decode_read (arg : Half) : decode (0x6#4 ++ 0#12 ++ arg) = some (.read arg) := by
  simp only [decode, rsvField_append, opField_append, argField_append]; rfl

theorem decode_recv (arg : Half) : decode (0x9#4 ++ 0#12 ++ arg) = some (.recv arg) := by
  simp only [decode, rsvField_append, opField_append, argField_append]; rfl

theorem decode_of_reservedOp {op : BitVec 4} (h : op = 0#4 ∨ 0xA#4 ≤ op) (arg : Half) :
    decode (op ++ 0#12 ++ arg) = none := by
  have hop : op.toNat = 0 ∨ 10 ≤ op.toNat := by simpa [← BitVec.toNat_inj, BitVec.le_def] using h
  simp only [decode, rsvField_append, opField_append, argField_append, ne_eq, not_true_eq_false, if_false]
  split
  case h_10 => rfl
  all_goals omega

/-! ### R64's four points, over the fields -/

theorem reservedOp_iff (w : Word) : reservedOp w = true ↔ opField w = 0#4 ∨ 0xA#4 ≤ opField w := by
  simp [reservedOp]

theorem reservedBitsSet_iff (w : Word) : reservedBitsSet w = true ↔ rsvField w ≠ 0#12 := by
  simp [reservedBitsSet]

theorem strayOperand_iff (w : Word) : strayOperand w = true ↔ opField w ∈ operandless ∧ argField w ≠ 0#16 := by
  simp [strayOperand]

theorem wideByte_iff (w : Word) :
    wideByte w = true ↔ opField w = 0x4#4 ∧ (argField w).extractLsb' 8 8 ≠ 0#8 := by
  simp [wideByte]

/-- The sixteen opcodes, as R62 and R64 sort them. -/
theorem opcode_sorts (op : BitVec 4) :
    (op = 0#4 ∨ 0xA#4 ≤ op) ∨ op ∈ operandless ∨ op = 0x4#4 ∨ op = 0x1#4 ∨ op = 0x6#4 ∨ op = 0x9#4 := by
  revert op; decide

theorem exists_request_of_operandless {op : BitVec 4} (h : op ∈ operandless) : ∃ i, opcodeOf i = op := by
  simp only [operandless, List.mem_cons, List.not_mem_nil, or_false] at h
  rcases h with rfl | rfl | rfl | rfl | rfl
  · exact ⟨.start, rfl⟩
  · exact ⟨.stop, rfl⟩
  · exact ⟨.ackRelease, rfl⟩
  · exact ⟨.flush, rfl⟩
  · exact ⟨.recvAck, rfl⟩

/-- An operand-less opcode is neither reserved nor BYTE_OUT's. -/
theorem operandless_apart : ∀ op ∈ operandless, ¬ (op = 0#4 ∨ 0xA#4 ≤ op) ∧ op ≠ 0x4#4 := by decide

/-- What decodes to nothing among the words whose rsv is 0. -/
theorem decode_eq_none_iff_fields (op : BitVec 4) (arg : Half) :
    decode (op ++ 0#12 ++ arg) = none ↔
      (op = 0#4 ∨ 0xA#4 ≤ op) ∨ (op ∈ operandless ∧ arg ≠ 0#16) ∨ (op = 0x4#4 ∧ arg.extractLsb' 8 8 ≠ 0#8) := by
  rcases opcode_sorts op with h | h | rfl | rfl | rfl | rfl
  · simp [decode_of_reservedOp h, h]
  · obtain ⟨i, rfl⟩ := exists_request_of_operandless h
    obtain ⟨hreserved, hbyte⟩ := operandless_apart _ h
    simp [decode_operandless h, noOperand, h, hreserved, hbyte]
  · rw [decode_byteOut]; simp [operandless]
  · rw [decode_configure]; simp [operandless]
  · rw [decode_read]; simp [operandless]
  · rw [decode_recv]; simp [operandless]

/-- R64's list is the list of the words that decode to nothing. -/
theorem decode_eq_none_iff (w : Word) :
    decode w = none ↔ (reservedOp w ∨ reservedBitsSet w ∨ strayOperand w ∨ wideByte w) := by
  rw [reservedOp_iff, reservedBitsSet_iff, strayOperand_iff, wideByte_iff]
  by_cases hr : rsvField w = 0#12
  · have h := decode_eq_none_iff_fields (opField w) (argField w)
    rw [← hr, fields_append w] at h
    simpa [hr] using h
  · simp [decode_of_reservedBits hr, hr]

end Sys2Proof

namespace Sys2Proof.Machine

/-! ### Performing an illegal word (R64, spec/60_exceptions.md R111) -/

theorem performIllegal_of_fault {w : Word} {s : State} {c : FaultCode} (h : s.fault = some c) :
    performIllegal w s = reply (.fault c) s := by simp only [performIllegal, h]

theorem performIllegal_of_no_fault {w : Word} {s : State} (h : s.fault = none) :
    performIllegal w s = raise .illegalRequest w s := by simp only [performIllegal, h]

theorem performWord_of_illegal {w : Word} (h : decode w = none) (s : State) :
    performWord w s = .next (performIllegal w s) := by simp only [performWord, h]

/-- An illegal word, FAULT not set, raises ILLEGAL_REQUEST. -/
theorem performWord_raises_illegal {w : Word} {s : State} (h : decode w = none) (hf : s.fault = none) :
    performWord w s = .next (raise .illegalRequest w s) := by
  rw [performWord_of_illegal h, performIllegal_of_no_fault hf]

/-- Settles O2: with rsv 0, by the sort of the opcode; with rsv not 0 both sides hold. -/
theorem illegalWordsFault : Obligations.IllegalWordsFault :=
  ⟨decode_eq_none_iff, fun _ _ => performWord_raises_illegal, fun n => ⟨decode_read n, decode_recv n⟩⟩

/-- Settles O3, one lemma for each case of R65; the five operand-less requests share one. -/
theorem decodeReadsTheFields : Obligations.DecodeReadsTheFields := by
  refine ⟨fun op rsv arg h => decode_of_reservedBits (by simpa using h), fun arg => ?_,
    fun op arg h => decode_of_reservedOp h arg, fun _ _ => performWord_raises_illegal⟩
  exact ⟨decode_configure arg,
    decode_operandless (i := .start) (by decide) arg,
    decode_operandless (i := .stop) (by decide) arg,
    decode_byteOut arg,
    decode_operandless (i := .ackRelease) (by decide) arg,
    decode_read arg,
    decode_operandless (i := .flush) (by decide) arg,
    decode_operandless (i := .recvAck) (by decide) arg,
    decode_recv arg⟩

end Sys2Proof.Machine
end

section
/-! The results of the requests and the bytes they carry (spec/30_encoding.md R66, R71, R84). -/

namespace Sys2Proof.Machine

/-- The result of a request that completes (R66). -/
def completedResult (i : Instr) (s : State) : Result :=
  match i with
  | .configure _ => .ok
  | .start => .ok
  | .stop => .ok
  | .byteOut _ => .ok
  | .ackRelease => .ok
  | .read _ => .ok
  | .flush => flushResult s.cur (nextTxAnswer s)
  | .recvAck => ackResult (nextRxAnswer 1 s)
  | .recv n => recvResult n.toNat (nextRxAnswer n.toNat s)

theorem result_of_completes {i : Instr} {s t : State} (h : Completes i s t) : t.result = some (completedResult i s) := by
  cases i with
  | configure d => rw [h]; rfl
  | start => rw [h.2]; rfl
  | stop => rw [h.2]; rfl
  | byteOut b => rw [h.2.2]; rfl
  | ackRelease => rw [h.2]; rfl
  | read n => obtain ⟨d, -, -, -, -, rfl⟩ := h; rfl
  | flush => rw [h.2, flushBody, reply_result, unitOf_length]; rfl
  | recvAck => rw [h]; rfl
  | recv n => rw [h.2]; rfl

/-- FLUSH's result tells whether the transport took the whole unit. -/
theorem flushResult_cases (len : Nat) (a : TxAnswer) :
    (a = .ok len ∧ flushResult len a = .sent len)
    ∨ (a ≠ .ok len ∧ flushResult len a = .transportError (.flushAnswer a)) := by
  cases a with
  | err => exact .inr ⟨by simp, rfl⟩
  | ok k =>
    by_cases h : k = len
    · subst h; exact .inl ⟨rfl, if_pos rfl⟩
    · exact .inr ⟨by simpa using h, if_neg h⟩

/-- RECV_ACK's result is an AckResult whatever the answer. -/
theorem ackResult_is_ack (a : RxAnswer) : ∃ d k, ackResult a = .ack d k := by
  cases a with
  | err => exact ⟨_, _, rfl⟩
  | ok bs =>
    match bs with
    | [] => exact ⟨_, _, rfl⟩
    | [h] => exact ⟨_, _, rfl⟩
    | _ :: _ :: _ => exact ⟨_, _, rfl⟩

/-- RECV's result tells whether all n bytes came; more than n never come (spec/20_memory.md R53). -/
theorem recvResult_cases (n : Nat) (s : State) :
    (∃ bs, nextRxAnswer n s = .ok bs ∧ bs.length = n ∧ recvResult n (nextRxAnswer n s) = .data bs)
    ∨ (∃ bs, nextRxAnswer n s = .ok bs ∧ bs.length < n
        ∧ recvResult n (nextRxAnswer n s) = .transportError (.received bs))
    ∨ (nextRxAnswer n s = .err ∧ recvResult n (nextRxAnswer n s) = .transportError (.received [])) := by
  obtain ⟨a, hallowed⟩ := nextRxAnswer_allowed n s
  cases ha : nextRxAnswer n s with
  | err => exact .inr (.inr ⟨rfl, rfl⟩)
  | ok bs =>
    rcases Nat.lt_or_eq_of_le (allowedAnswer_length (hallowed.symm.trans ha)) with hshort | hall
    · exact .inr (.inl ⟨bs, rfl, hshort, if_neg (Nat.ne_of_lt hshort)⟩)
    · exact .inl ⟨bs, rfl, hall, if_pos hall⟩

/-- A completed request's result is no FAULT. -/
theorem completedResult_ne_fault (i : Instr) (s : State) (c : FaultCode) : completedResult i s ≠ .fault c := by
  cases i with
  | flush => rcases flushResult_cases s.cur (nextTxAnswer s) with ⟨-, e⟩ | ⟨-, e⟩ <;> simp [completedResult, e]
  | recvAck =>
    obtain ⟨d, k, e⟩ := ackResult_is_ack (nextRxAnswer 1 s)
    simp [completedResult, e]
  | recv n =>
    rcases recvResult_cases n.toNat s with ⟨bs, -, -, e⟩ | ⟨bs, -, -, e⟩ | ⟨-, e⟩ <;> simp [completedResult, e]
  | configure d => exact Result.noConfusion
  | start => exact Result.noConfusion
  | stop => exact Result.noConfusion
  | byteOut b => exact Result.noConfusion
  | ackRelease => exact Result.noConfusion
  | read n => exact Result.noConfusion

/-- After an illegal word FAULT is set and the result is it (R66, spec/60_exceptions.md R113, R114). -/
theorem performIllegal_result (w : Word) (s : State) :
    ∃ c, (performIllegal w s).result = some (.fault c) ∧ (performIllegal w s).fault = some c := by
  cases hf : s.fault with
  | some c => exact ⟨c, by rw [performIllegal_of_fault hf]; exact ⟨rfl, hf⟩⟩
  | none => exact ⟨.illegalRequest, by rw [performIllegal_of_no_fault hf]; exact ⟨rfl, rfl⟩⟩

/-- A request's own end: FAULT set and shown by the result, or no fault and the result its completion gives. -/
theorem exec_result {i : Instr} {s t : State} (h : exec i s = .next t) :
    (∃ c, t.fault = some c ∧ t.result = some (.fault c))
    ∨ (t.fault = none ∧ t.result = some (completedResult i s)) := by
  rcases exec_cases h with ⟨c, hf, rfl⟩ | ⟨c, -, -, -, rfl⟩ | ⟨hf, -, hc⟩
  · exact .inl ⟨c, hf, rfl⟩
  · exact .inl ⟨c, rfl, rfl⟩
  · exact .inr ⟨(completes_fault hc).trans hf, result_of_completes hc⟩

/-- Settles O22: a request faults or completes, and a completed one's result is `completedResult`, row by row of R66. -/
theorem resultKinds : Obligations.ResultKinds := by
  refine ⟨fun i s t h => ?request, fun w s h => ?illegal⟩
  case illegal =>
    obtain ⟨c, hr, hf⟩ := performIllegal_result w s
    exact ⟨_, c, performWord_of_illegal h s, hr, hf⟩
  case request =>
    rcases exec_result h with ⟨c, hf, hr⟩ | ⟨hf, hr⟩
    · exact ⟨_, hr, fun d => by simp [hf], fun _ => rfl, fun hno => by simp [hf] at hno⟩
    refine ⟨_, hr, fun c => by simp [hf, completedResult_ne_fault], fun hno => absurd hf hno, fun _ => ?_⟩
    cases i with
    | configure d => exact ⟨rfl, rfl⟩
    | start => exact ⟨rfl, rfl⟩
    | stop => exact ⟨rfl, rfl⟩
    | byteOut b => exact ⟨rfl, rfl⟩
    | ackRelease => exact ⟨rfl, rfl⟩
    | read n => exact ⟨rfl, rfl⟩
    | flush =>
      rcases flushResult_cases s.cur (nextTxAnswer s) with ⟨ha, e⟩ | ⟨ha, e⟩
      · exact .inl ⟨ha, e, congrArg Result.kindCode e⟩
      · exact .inr ⟨ha, e, congrArg Result.kindCode e⟩
    | recvAck =>
      obtain ⟨d, k, e⟩ := ackResult_is_ack (nextRxAnswer 1 s)
      exact ⟨⟨d, k, e⟩, congrArg Result.kindCode e⟩
    | recv n =>
      rcases recvResult_cases n.toNat s with ⟨bs, ha, hl, e⟩ | ⟨bs, ha, hl, e⟩ | ⟨ha, e⟩
      · exact .inl ⟨bs, ha, hl, e, congrArg Result.kindCode e⟩
      · exact .inr (.inl ⟨bs, ha, hl, e, congrArg Result.kindCode e⟩)
      · exact .inr (.inr ⟨ha, e, congrArg Result.kindCode e⟩)

/-- R71's formula: the shift leaves bit 0 to rw, and the mask keeps the low byte. -/
theorem addressByte_toNat (dev : Nat) (rw : Bool) : (addressByte dev rw).toNat = (2 * dev + rw.toNat) % 256 := by
  have hor : dev <<< 1 ||| rw.toNat = dev <<< 1 + rw.toNat :=
    (Nat.shiftLeft_add_eq_or_of_lt (Bool.toNat_lt rw) dev).symm
  have hmask : ∀ n : Nat, n &&& 0xFF = n % 256 := fun n => Nat.and_two_pow_sub_one_eq_mod n 8
  rw [addressByte, hor, hmask, BitVec.toNat_ofNat, Nat.mod_mod, Nat.shiftLeft_eq, Nat.mul_comm, pow_one]

/-- Settles O6: for a 7-bit address the mask removes nothing. -/
theorem addressByteFormula : Obligations.AddressByteFormula := by
  refine ⟨fun dev rw h => ?_, addressByte_toNat, by decide, by decide⟩
  have := Bool.toNat_lt rw
  rw [addressByte_toNat, Nat.mod_eq_of_lt (by omega)]

/-- The result a handshake byte gives, bit 0 read alone (R84). -/
theorem ackResult_of_byte (h : Byte) : ackResult (.ok [h]) = .ack true (!h.getLsbD 0) := rfl

/-- Settles O42: a handshake byte's result is a function of its bit 0. -/
theorem handshakeReadsBitZero : Obligations.HandshakeReadsBitZero := by
  intro h g hg
  rw [ackResult_of_byte, ackResult_of_byte]
  exact ⟨by rw [hg], fun h0 => by rw [h0]; rfl, fun h1 => by rw [h1]; rfl⟩

end Sys2Proof.Machine
end

section
/-! The bus primitives START, STOP, BYTE_OUT, ACK_RELEASE and READ (spec/40_bus_primitives.md R87, R92 to R99). -/

namespace Sys2Proof

/-! ### Their words (spec/30_encoding.md R61, R64) -/

/-- A word is its upper half, in place, and its operand. -/
theorem append_eq_or (upper : BitVec 16) (arg : Half) : upper ++ arg = (upper ++ 0#16) ||| arg.setWidth 32 := by
  rw [BitVec.setWidth_eq_append (by decide), BitVec.cast_eq, BitVec.or_append, BitVec.or_zero, BitVec.zero_or]

theorem encode_read (n : Half) : encode (.read n) = 0x60000000#32 ||| n.setWidth 32 := append_eq_or (0x6#4 ++ 0#12) n

theorem encode_byteOut (b : Byte) : encode (.byteOut b) = 0x40000000#32 ||| b.setWidth 32 := by
  have hzero : (0#8 ++ b : Half).setWidth 32 = b.setWidth 32 :=
    BitVec.eq_of_toNat_eq (by rw [BitVec.toNat_setWidth, BitVec.toNat_append]; simp)
  exact hzero ▸ append_eq_or (0x4#4 ++ 0#12) (0#8 ++ b)

/-- An operand-less opcode with an operand, or with rsv not 0, spells no request (R64). -/
theorem decode_of_strayOperand {w : Word} (ho : opField w ∈ operandless) (h : argField w ≠ 0#16 ∨ rsvField w ≠ 0#12) :
    decode w = none := by
  rw [decode_eq_none_iff, strayOperand_iff, reservedBitsSet_iff]
  rcases h with harg | hrsv
  · exact .inr (.inr (.inl ⟨ho, harg⟩))
  · exact .inr (.inl hrsv)

/-- BYTE_OUT's opcode with a wide operand, or with rsv not 0, spells no request (R64). -/
theorem decode_of_wideByte {w : Word} (ho : opField w = 0x4#4)
    (h : (argField w).extractLsb' 8 8 ≠ 0#8 ∨ rsvField w ≠ 0#12) : decode w = none := by
  rw [decode_eq_none_iff, wideByte_iff, reservedBitsSet_iff]
  rcases h with harg | hrsv
  · exact .inr (.inr (.inr ⟨ho, harg⟩))
  · exact .inr (.inl hrsv)

end Sys2Proof

namespace Sys2Proof.Machine

/-! ### What an encoder operation leaves when it completes (R85 to R87) -/

/-- The string is told by LITS, the operand and, for READ alone, DIV (R87). -/
theorem stringOf_congr (l : Lits) {d e : Option Half} {i : Instr} (h : (∃ n, i = .read n) → d = e) :
    stringOf l d i = stringOf l e i := by
  cases i with
  | read n => rw [h ⟨n, rfl⟩]
  | _ => rfl

/-- Beside its string an encoder operation writes the result port, PHASE and DATA_OWED only. -/
theorem encoder_leaves {i : Instr} {s t : State} {bs : Bytes} (hs : stringOf s.lits.val s.div i = some bs)
    (h : Completes i s t) : ∃ p n, t = reply .ok { pushed s bs with phase := p, dataOwed := n } := by
  cases i with
  | start => cases hs; exact ⟨s.phase, s.dataOwed, h.2⟩
  | stop => cases hs; exact ⟨s.phase, s.dataOwed, h.2⟩
  | byteOut b => cases hs; exact ⟨.ackQueued, s.dataOwed, h.2.2⟩
  | ackRelease => cases hs; exact ⟨.open_, s.dataOwed, h.2⟩
  | read n =>
    obtain ⟨d, -, hd, -, -, rfl⟩ := h
    rw [hd] at hs; cases hs
    exact ⟨s.phase, s.dataOwed + 1, rfl⟩
  | configure d => cases hs
  | flush => cases hs
  | recvAck => cases hs
  | recv n => cases hs

theorem encoder_answers_ok {i : Instr} {s t : State} {bs : Bytes} (hs : stringOf s.lits.val s.div i = some bs)
    (h : Completes i s t) : t.result = some .ok := by
  obtain ⟨p, n, rfl⟩ := encoder_leaves hs h
  rfl

theorem encoderFrame_of_completes {i : Instr} {s t : State} {bs : Bytes} (hs : stringOf s.lits.val s.div i = some bs)
    (h : Completes i s t) : EncoderFrame s t := by
  obtain ⟨p, n, rfl⟩ := encoder_leaves hs h
  exact ⟨rfl, rfl, rfl, rfl, rfl, ⟨rfl, rfl, rfl, rfl, rfl⟩⟩

/-- The unit after an encoder operation ends with its string. -/
theorem unitOf_of_completes {i : Instr} {s t : State} {bs : Bytes} (hs : stringOf s.lits.val s.div i = some bs)
    (h : Completes i s t) : unitOf t = unitOf s ++ bs := by
  obtain ⟨p, n, rfl⟩ := encoder_leaves hs h
  exact unitOf_pushed s _ bs rfl rfl rfl

/-- An admitted encoder operation whose conditions hold answers OK, appends its string and keeps its frame. -/
theorem encoder_completes {i : Instr} {s t : State} {bs : Bytes} {p : Phase} {n : Nat} (hf : s.fault = none)
    (ha : s.phase ∈ admittedPhases i) (hs : stringOf s.lits.val s.div i = some bs) (hc : Completes i s t)
    (hp : t.phase = p) (hn : t.dataOwed = n) :
    ∃ t, exec i s = .next t ∧ t.result = some .ok ∧ Appended s t bs ∧ EncoderFrame s t ∧ t.phase = p ∧ t.dataOwed = n :=
  ⟨t, exec_of_completes hf ha hc, encoder_answers_ok hs hc, appended_of_completes hs hc, encoderFrame_of_completes hs hc,
    hp, hn⟩

/-- Into an empty buffer, the unit is then the string. -/
theorem encoder_fills_empty (i : Instr) (s : State) {t : State} {bs : Bytes} (hf : s.fault = none)
    (ha : s.phase ∈ admittedPhases i) (h0 : s.cur = 0) (hs : stringOf s.lits.val s.div i = some bs)
    (hc : Completes i s t) :
    exec i s = .next t ∧ t.cur = bs.length ∧ t.result = some .ok ∧ unitOf t = bs := by
  have hunit : unitOf t = bs := by rw [unitOf_of_completes hs hc, unitOf_empty s h0, List.nil_append]
  exact ⟨exec_of_completes hf ha hc, by rw [← hunit, unitOf_length], encoder_answers_ok hs hc, hunit⟩

/-! ### Their faults (R93 to R99, "Faults") -/

theorem raises_ackReleaseOmitted {i : Instr} {s : State} (hf : s.fault = none) (hp : s.phase = .releaseDue)
    (hi : i ≠ .ackRelease) : Raises i s .ackReleaseOmitted :=
  exec_of_not_admitted hf (if_pos ⟨hp, hi⟩)

/-- A request let in nowhere but OPEN and RELEASE_DUE is out of order in the other three phases. -/
theorem raises_handshakeOrder {i : Instr} {s : State} (hi : admittedPhases i ⊆ [.releaseDue, .open_])
    (hf : s.fault = none) (hp : s.phase = .ackQueued ∨ s.phase = .ackInFlight ∨ s.phase = .dataInFlight) :
    Raises i s .handshakeOrder := by
  have hdue : s.phase ≠ .releaseDue := by rcases hp with h | h | h <;> simp [h]
  have hout : s.phase ∉ admittedPhases i := fun h => by
    have := hi h
    rcases hp with h | h | h <;> simp [h] at this
  exact exec_of_not_admitted hf (by rw [admission, if_neg fun h => hdue h.1, if_neg hout])

/-- An admitted request whose body ends in a fault takes fault entry with it. -/
theorem raises_of_body {i : Instr} {s : State} {c : FaultCode} {r : Except FaultCode State}
    (e : exec i s = perform i s (conclude i s r)) (hf : s.fault = none) (ha : s.phase ∈ admittedPhases i)
    (hr : r = .error c) : Raises i s c := by
  subst hr
  exact e.trans (perform_of_admitted hf ha)

/-! ### START and STOP -/

/-- R80 point 3: the last bytes of the stop and the start sequence differ. -/
theorem stopSeq_getLast?_ne (l : AdmittedLits) : l.val.stopSeq.getLast? ≠ l.val.startSeq.getLast? := by
  have h := l.wf
  simp only [litsWF, lits3, Bool.and_eq_true, bne_iff_ne] at h
  obtain ⟨⟨⟨⟨⟨⟨-, h3⟩, -⟩, -⟩, -⟩, -⟩, -⟩ := h
  exact h3

/-- Settles O28: START appends its string where it fits, and takes the fault of R93 everywhere else. -/
theorem startAppendsStartSequence : Obligations.StartAppendsStartSequence := by
  refine ⟨by decide, fun s hf hp => ?body, fun _ hf hp => raises_ackReleaseOmitted hf hp (by decide),
    fun _ => raises_handshakeOrder (by decide),
    fun _ _ hf ho h => performWord_raises_illegal (decode_of_strayOperand (by rw [ho]; decide) h) hf,
    fun s hl => ?bound, ?atReset⟩
  case body =>
    have ha : s.phase ∈ admittedPhases .start := by rw [hp]; decide
    refine ⟨fun hfit => encoder_completes hf ha rfl ⟨hfit, rfl⟩ hp rfl, fun hover => ?_⟩
    exact raises_of_body rfl hf ha (by rw [startBody, append_of_overflow hover]; rfl)
  case bound =>
    have hlen : reference.val.startSeq.length = 27 := by decide
    rw [hl, hlen]; simp only [Config.cap]; omega
  case atReset => exact ⟨_, encoder_fills_empty .start (State.resetOf reference) rfl (by decide) rfl rfl ⟨by decide, rfl⟩⟩

/-- Settles O29: STOP appends its string where it fits, and takes the fault of R95 everywhere else; LitsWF keeps the last
bytes of stop and start apart. -/
theorem stopAppendsStopSequence : Obligations.StopAppendsStopSequence := by
  refine ⟨by decide, fun s hf hp => ?body, fun _ hf hp => raises_ackReleaseOmitted hf hp (by decide),
    fun _ => raises_handshakeOrder (by decide),
    fun _ _ hf ho h => performWord_raises_illegal (decode_of_strayOperand (by rw [ho]; decide) h) hf,
    fun s => stopSeq_getLast?_ne s.lits, fun s hl => ?bound, ?atReset⟩
  case body =>
    have ha : s.phase ∈ admittedPhases .stop := by rw [hp]; decide
    refine ⟨fun hfit => encoder_completes hf ha rfl ⟨hfit, rfl⟩ hp rfl, fun hover => ?_⟩
    exact raises_of_body rfl hf ha (by rw [stopBody, append_of_overflow hover]; rfl)
  case bound =>
    have hlen : reference.val.stopSeq.length = 27 := by decide
    rw [hl, hlen]; simp only [Config.cap]; omega
  case atReset => exact ⟨_, encoder_fills_empty .stop (State.resetOf reference) rfl (by decide) rfl rfl ⟨by decide, rfl⟩⟩

/-! ### BYTE_OUT -/

theorem byteOutSeq_length (l : Lits) (b : Byte) : (byteOutSeq l b).length = l.boHead.length + 1 + l.boTail.length := by
  simp only [byteOutSeq, List.length_append, List.length_singleton]

/-- FLUSH alone is let in while a BYTE_OUT is in the buffer. -/
theorem eq_flush_of_admitted_ackQueued {i : Instr} (h : Phase.ackQueued ∈ admittedPhases i) : i = .flush := by
  cases i with
  | flush => rfl
  | _ => simp [admittedPhases] at h

/-- What a request that completes in OPEN does to PHASE: FLUSH and BYTE_OUT alone can change it (R96). -/
theorem phase_of_completes_open {i : Instr} {s t : State} (hp : s.phase = .open_) (ha : s.phase ∈ admittedPhases i)
    (h : Completes i s t) : t.phase = .open_ ∨ i = .flush ∨ ∃ b, i = .byteOut b := by
  cases i with
  | flush => exact .inr (.inl rfl)
  | byteOut b => exact .inr (.inr ⟨b, rfl⟩)
  | configure d => rw [h]; exact .inl hp
  | start => rw [h.2]; exact .inl hp
  | stop => rw [h.2]; exact .inl hp
  | ackRelease => rw [h.2]; exact .inl rfl
  | read n => obtain ⟨d, -, -, -, -, rfl⟩ := h; exact .inl hp
  | recvAck => simp [hp, admittedPhases] at ha
  | recv n => simp [hp, admittedPhases] at ha

/-- Settles O30: BYTE_OUT's two faults and its completion exclude each other, for every byte alike; that FLUSH must follow is
admission, that BYTE_OUT alone leaves OPEN without one is a case split over the requests that complete. -/
theorem byteOutAppendsTheByte : Obligations.ByteOutAppendsTheByte := by
  refine ⟨encode_byteOut, fun b s hf hp => ?body,
    fun _ _ hf hp => raises_ackReleaseOmitted hf hp Instr.noConfusion,
    fun _ _ => raises_handshakeOrder (by simp [admittedPhases]),
    fun _ _ hf ho h => performWord_raises_illegal (decode_of_wideByte ho h) hf,
    fun i s t hf hp h ht => ?onlyFlushAfter, fun i s t hp h ht => ?leavesOpen, fun s hl => ?bound, ?atReset⟩
  case body =>
    have ha : s.phase ∈ admittedPhases (.byteOut b) := by rw [hp]; exact List.mem_singleton_self _
    rw [← byteOutSeq_length s.lits.val b]
    refine ⟨fun h0 hfit => encoder_completes hf ha rfl ⟨h0, hfit, rfl⟩ rfl rfl, fun hreads => ?_, fun h0 hover => ?_⟩
    · exact raises_of_body rfl hf ha (if_pos hreads)
    · exact raises_of_body rfl hf ha (by rw [byteOutBody, if_neg (by omega), append_of_overflow hover]; rfl)
  case onlyFlushAfter =>
    rcases exec_cases h with ⟨c, hc, -⟩ | ⟨c, -, -, -, rfl⟩ | ⟨-, ha, -⟩
    · simp [hf] at hc
    · simp at ht
    · exact eq_flush_of_admitted_ackQueued (hp ▸ ha)
  case leavesOpen =>
    rcases exec_cases h with ⟨c, -, rfl⟩ | ⟨c, -, -, -, rfl⟩ | ⟨-, ha, hc⟩
    · exact absurd hp ht
    · exact absurd hp ht
    · exact (phase_of_completes_open hp ha hc).resolve_left ht
  case bound =>
    have hlen : reference.val.boHead.length + 1 + reference.val.boTail.length = 10 := by decide
    rw [hl, hlen]; simp only [Config.cap]; omega
  case atReset =>
    obtain ⟨he, hcur, hr, hunit⟩ := encoder_fills_empty (.byteOut 0xA0#8) (State.resetOf reference) rfl
      (by decide) rfl rfl ⟨rfl, by decide, rfl⟩
    exact ⟨_, he, hcur, rfl, hr, hunit⟩

/-! ### ACK_RELEASE -/

/-- Settles O31: ACK_RELEASE is let in from two phases and does the same in both; a handshake byte makes a release due
whatever its bits. -/
theorem ackReleaseAppendsRelease : Obligations.AckReleaseAppendsRelease := by
  refine ⟨by decide, fun s hf hp => ?body, fun _ => raises_handshakeOrder (by decide),
    fun _ _ hf ho h => performWord_raises_illegal (decode_of_strayOperand (by rw [ho]; decide) h) hf,
    fun s hinv hp => hinv.emptyAwaiting (.inr (.inl hp)), fun s h hf hp hbyte => ?releaseDue, fun s hl => ?bound, ?atReset⟩
  case body =>
    have ha : s.phase ∈ admittedPhases .ackRelease := by simpa [admittedPhases] using hp
    refine ⟨fun hfit => encoder_completes hf ha rfl ⟨hfit, rfl⟩ rfl rfl, fun hover => ?_⟩
    exact raises_of_body rfl hf ha (by rw [ackReleaseBody, append_of_overflow hover]; rfl)
  case releaseDue =>
    have ha : s.phase ∈ admittedPhases .recvAck := by rw [hp]; decide
    exact ⟨_, exec_of_completes hf ha rfl, by simp [recvAckBody, hbyte, handshakeSampled]⟩
  case bound =>
    have hlen : reference.val.ackReleaseSeq.length = 3 := by decide
    rw [hl, hlen]; simp only [Config.cap]; omega
  case atReset =>
    obtain ⟨he, hcur, hr, hunit⟩ := encoder_fills_empty .ackRelease
      { State.resetOf reference with phase := .releaseDue } rfl (by decide) rfl rfl ⟨by decide, rfl⟩
    exact ⟨_, he, hcur, rfl, hr, hunit⟩

/-! ### READ -/

theorem rdSeq_length (l : Lits) (L : Nat) :
    (rdSeq l L).length = l.rdHead.length + L * (l.rdG0.length + l.rdG1.length + l.rdG2.length) := by
  simp only [rdSeq, List.length_append, rep_length, Nat.mul_add, Nat.add_assoc]

/-- Under REF the head and each loop group are one command of three bytes (R92). -/
theorem rdSeq_length_reference (L : Nat) : (rdSeq reference.val L).length = 3 + 9 * L := by
  rw [rdSeq_length, Nat.mul_comm L]; rfl

/-- Settles O35: the sequence is its definition, and its length the sum of its parts' lengths. -/
theorem readSequenceLength : Obligations.ReadSequenceLength :=
  ⟨fun _ _ => rfl, rdSeq_length, rdSeq_length_reference⟩

/-! The body of READ, one equation for each fault, in the order of its checks (R99). -/

theorem readBody_of_length {n : Half} (s : State) (h : n ≠ 1#16) : readBody n s = .error .readLengthUnsupported :=
  if_pos fun hn => h (BitVec.eq_of_toNat_eq (List.mem_singleton.mp hn))

theorem readBody_of_divisorUnset {s : State} (h : s.div = none) : readBody 1#16 s = .error .divisorUnset := by
  simp [readBody, Config.readNAdmitted, h]

theorem readBody_of_loopCountZero {s : State} {d : Half} (hd : s.div = some d) (h : loopCount d = 0) :
    readBody 1#16 s = .error .loopCountZero := by
  simp [readBody, Config.readNAdmitted, hd, h]

theorem readBody_of_overflow {s : State} {d : Half} (hd : s.div = some d) (hL : loopCount d ≠ 0)
    (h : Config.cap < s.cur + (rdSeq s.lits.val (loopCount d)).length) : readBody 1#16 s = .error .bufferOverflow := by
  simp [readBody, Config.readNAdmitted, hd, hL, append_of_overflow h, Except.map]

/-- When READ completes under REF, where its string is 3 + 9 L bytes (R92, R100). -/
theorem read_completes_reference {s : State} {d : Half} (hl : s.lits = reference) (hd : s.div = some d)
    (hL : loopCount d ≠ 0) (hfit : s.cur + (3 + 9 * loopCount d) ≤ Config.cap) :
    Completes (.read 1#16) s
      (reply .ok { pushed s (rdSeq s.lits.val (loopCount d)) with dataOwed := s.dataOwed + 1 }) :=
  ⟨d, rfl, hd, hL, by rwa [hl, rdSeq_length_reference], rfl⟩

/-- CONFIGURE, whatever it answers, leaves the buffered bytes (R99, R103). -/
theorem unitOf_of_configure {d : Half} {s t : State} (h : exec (.configure d) s = .next t) : unitOf t = unitOf s := by
  rcases exec_cases h with ⟨c, -, rfl⟩ | ⟨c, -, -, -, rfl⟩ | ⟨-, -, rfl⟩ <;> exact unitOf_congr s _ rfl rfl rfl

/-- Settles O32: READ's checks come one after the other, and past them it appends RdSeq of the loop count of the divisor
held. -/
theorem readAppendsReadSequence : Obligations.ReadAppendsReadSequence := by
  refine ⟨encode_read, fun n d s hf hp hn hd hL => ?body, fun n s hf hp => ?faults, loopCount_eq_zero_iff,
    fun _ _ hf hp => raises_ackReleaseOmitted hf hp Instr.noConfusion,
    fun _ _ => raises_handshakeOrder (by simp [admittedPhases]),
    fun _ _ hf _ h => performWord_raises_illegal (decode_of_reservedBits h) hf,
    fun _ _ _ => unitOf_of_configure, fun d s hl h0 => ?bound, ?atReset⟩
  case body =>
    have ha : s.phase ∈ admittedPhases (.read n) := by rw [hp]; exact List.mem_singleton_self _
    subst hn
    refine ⟨fun hfit => ?_, fun hover => ?_⟩
    · exact encoder_completes hf ha (by rw [stringOf, hd]; rfl) ⟨d, rfl, hd, hL, hfit, rfl⟩ hp rfl
    · exact raises_of_body rfl hf ha (readBody_of_overflow hd hL hover)
  case faults =>
    have ha : s.phase ∈ admittedPhases (.read n) := by rw [hp]; exact List.mem_singleton_self _
    refine ⟨fun hn => ?_, fun hn hd => ?_, fun d hn hd h6 => ?_⟩
    · exact raises_of_body rfl hf ha (readBody_of_length s hn)
    · subst hn; exact raises_of_body rfl hf ha (readBody_of_divisorUnset hd)
    · subst hn; exact raises_of_body rfl hf ha (readBody_of_loopCountZero hd ((loopCount_eq_zero_iff d).mpr h6))
  case bound =>
    rw [hl, h0, rdSeq_length_reference]; simp only [Config.cap, loopCount]; omega
  case atReset =>
    obtain ⟨he, hcur, hr, hunit⟩ := encoder_fills_empty (.read 1#16)
      { State.resetOf reference with div := some 299#16 } (bs := rdSeq reference.val 20) rfl (by decide) rfl rfl
      (read_completes_reference rfl rfl (by decide) (by decide))
    exact ⟨_, he, rfl, hcur.trans (rdSeq_length_reference 20), hr, hunit⟩

/-! ### The string an operation appends, from two states (R87) -/

/-- A request that ends without a fault has completed. -/
theorem completes_of_no_fault {i : Instr} {s t : State} (h : exec i s = .next t) (hf : t.fault = none) :
    Completes i s t :=
  ((exec_faulted_or_completed h).resolve_left fun hfaulted => hfaulted.1 hf).2

/-- Settles O27: an operation that completes has appended its string (R45), and the string is the same from both states. -/
theorem encoderIsStateless : Obligations.EncoderIsStateless := by
  intro i s s' t t' hl hdiv hsome h h' hf hf'
  obtain ⟨bs, hs⟩ := Option.isSome_iff_exists.mp hsome
  have hs' : stringOf s'.lits.val s'.div i = some bs := by rw [← hl, ← stringOf_congr s.lits.val hdiv, hs]
  exact ⟨bs, unitOf_of_completes hs (completes_of_no_fault h hf), unitOf_of_completes hs' (completes_of_no_fault h' hf')⟩

end Sys2Proof.Machine
end

section
/-! The session and transport requests CONFIGURE, FLUSH, RECV_ACK and RECV (spec/41_session_transport.md R103 to R108). -/

namespace Sys2Proof

/-! ### The words with an operand (spec/30_encoding.md R61) -/

theorem encode_configure (d : Half) : encode (.configure d) = 0x10000000#32 ||| d.setWidth 32 :=
  append_eq_or (0x1#4 ++ 0#12) d

theorem encode_recv (n : Half) : encode (.recv n) = 0x90000000#32 ||| n.setWidth 32 := append_eq_or (0x9#4 ++ 0#12) n

end Sys2Proof

namespace Sys2Proof.Machine

/-! ### What the four requests share -/

/-- Outside RELEASE_DUE and its own phases a request is out of order (spec/70_reset_and_hazards.md R128). -/
theorem raises_handshakeOrder_of_not_admitted {i : Instr} {s : State} (hf : s.fault = none)
    (hp : s.phase ∉ .releaseDue :: admittedPhases i) : Raises i s .handshakeOrder := by
  obtain ⟨hdue, hout⟩ := not_or.mp (mt List.mem_cons.mpr hp)
  exact exec_of_not_admitted hf (by rw [admission, if_neg fun h => hdue h.1, if_neg hout])

/-- A completed FLUSH, RECV_ACK or RECV keeps what no transport request writes. -/
theorem transportFrame_of_completes {i : Instr} {s t : State} (hi : i = .flush ∨ i = .recvAck ∨ ∃ n, i = .recv n)
    (h : Completes i s t) : TransportFrame s t := by
  rcases hi with rfl | rfl | ⟨n, rfl⟩
  · obtain ⟨-, rfl⟩ := h; exact ⟨rfl, fun _ => rfl, rfl, rfl, rfl, rfl⟩
  · subst h; exact ⟨rfl, fun _ => rfl, rfl, rfl, rfl, rfl⟩
  · obtain ⟨-, rfl⟩ := h; exact ⟨rfl, fun _ => rfl, rfl, rfl, rfl, rfl⟩

/-! ### CONFIGURE -/

/-- With a divisor whose loop count is 0, no READ ends without a fault (spec/40_bus_primitives.md R90, R99). -/
theorem read_faults_of_loopCountZero {n d : Half} {s t : State} (hd : s.div = some d) (h0 : loopCount d = 0)
    (h : exec (.read n) s = .next t) : t.fault ≠ none := by
  intro ht
  obtain ⟨e, -, he, hne, -⟩ := completes_of_no_fault h ht
  rw [hd] at he; cases he
  exact hne h0

/-- Settles O37: CONFIGURE has no check of its own, so in OPEN it completes for every d; a divisor with loop count 0 shows at
READ, which does not complete with it. -/
theorem configureLatchesTheDivisor : Obligations.ConfigureLatchesTheDivisor := by
  refine ⟨encode_configure, fun d s hf hp => ?body,
    fun _ _ hf hp => raises_ackReleaseOmitted hf hp Instr.noConfusion,
    fun _ _ => raises_handshakeOrder (by simp [admittedPhases]),
    fun _ _ hf _ h => performWord_raises_illegal (decode_of_reservedBits h) hf,
    fun d n s t h6 hd h => ?smallDivisor, fun l => ?atReset, by decide, by decide⟩
  case body =>
    have ha : s.phase ∈ admittedPhases (.configure d) := by rw [hp]; exact List.mem_singleton_self _
    exact ⟨_, exec_of_completes hf ha rfl, rfl, rfl, rfl, fun _ => rfl, rfl, rfl, rfl, rfl, rfl, rfl,
      ⟨rfl, rfl, rfl, rfl, rfl⟩⟩
  case smallDivisor =>
    have h0 := (loopCount_eq_zero_iff d).mpr h6
    exact ⟨h0, read_faults_of_loopCountZero hd h0 h⟩
  case atReset => exact ⟨_, exec_of_completes rfl (List.mem_singleton_self _) rfl, rfl⟩

/-! ### FLUSH -/

/-- The unit has the buffer's bytes at their addresses (spec/20_memory.md R47). -/
theorem unitOf_getElem? {s : State} {a : Nat} {b : Byte} (ha : a < s.cur) (hb : s.buf.read a = some b) :
    (unitOf s)[a]? = some b := by
  rw [unitOf, memRead_getElem? s 0 s.cur a ha, cellByte, Nat.zero_add, hb, Option.getD_some]

/-! PHASE, RX_OWED and DATA_OWED after a FLUSH, one lemma for each case of R105. -/

theorem flushBody_of_ackQueued {s : State} (hp : s.phase = .ackQueued) :
    (flushBody s).phase = .ackInFlight ∧ (flushBody s).rxOwed = 1 ∧ (flushBody s).dataOwed = s.dataOwed := by
  simp [flushBody, phaseAfterFlush, rxOwedAfterFlush, dataOwedAfterFlush, hp]

theorem flushBody_of_open_reads {s : State} (hp : s.phase = .open_) (hd : 0 < s.dataOwed) :
    (flushBody s).phase = .dataInFlight ∧ (flushBody s).rxOwed = s.dataOwed ∧ (flushBody s).dataOwed = 0 := by
  simp [flushBody, phaseAfterFlush, rxOwedAfterFlush, dataOwedAfterFlush, hp, hd]

theorem flushBody_of_open_noReads {s : State} (hp : s.phase = .open_) (hd : s.dataOwed = 0) :
    (flushBody s).phase = .open_ ∧ (flushBody s).rxOwed = s.rxOwed ∧ (flushBody s).dataOwed = 0 := by
  simp [flushBody, phaseAfterFlush, rxOwedAfterFlush, dataOwedAfterFlush, hp, hd]

/-- While a BYTE_OUT is in the buffer no READ is (spec/10_state.md R32). -/
theorem dataOwed_eq_zero_of_ackQueued {s : State} (h : BlockInv s) (hp : s.phase = .ackQueued) : s.dataOwed = 0 :=
  Nat.eq_zero_of_not_pos fun hd => by simp [h.readsOnlyWhileOpen hd] at hp

/-- Settles O38: FLUSH does the same in both its phases but for PHASE and the debts, and the transport's answer shows in HIST
and the result alone. -/
theorem flushSendsTheUnit : Obligations.FlushSendsTheUnit := by
  refine ⟨by decide, fun s hf hp hcur => ?body, fun _ hf hp => raises_ackReleaseOmitted hf hp (by decide),
    fun s hf hp => ?outOfOrder,
    fun _ _ hf ho h => performWord_raises_illegal (decode_of_strayOperand (by rw [ho]; decide) h) hf,
    fun _ => dataOwed_eq_zero_of_ackQueued⟩
  case body =>
    have ha : s.phase ∈ admittedPhases .flush := by simpa [admittedPhases] using hp
    have hc : Completes .flush s (flushBody s) := ⟨hcur, rfl⟩
    have hr : (flushBody s).result = some (flushResult s.cur (nextTxAnswer s)) := result_of_completes hc
    refine ⟨_, _, exec_of_completes hf ha hc, rfl, rfl, unitOf_length s, fun _ _ => unitOf_getElem?, rfl,
      flushBody_of_ackQueued, flushBody_of_open_reads, flushBody_of_open_noReads, fun hall => ?_, fun hnot => ?_,
      transportFrame_of_completes (.inl rfl) hc⟩
    · rw [hr, ((flushResult_cases _ _).resolve_right fun h => h.1 hall).2]
    · rw [hr, ((flushResult_cases _ _).resolve_left fun h => hnot h.1).2]
  case outOfOrder =>
    exact raises_handshakeOrder_of_not_admitted hf (by rcases hp with h | h <;> simp [h, admittedPhases])

/-! ### RECV_ACK -/

/-- A byte that came makes a release due, on ACK and on NACK alike (R106). -/
theorem recvAckBody_of_byte {s : State} {h : Byte} (e : nextRxAnswer 1 s = .ok [h]) :
    (recvAckBody s).phase = .releaseDue ∧ (recvAckBody s).result = some (.ack true (!h.getLsbD 0)) := by
  simp [recvAckBody, e, handshakeSampled, ackResult_of_byte]

/-- No byte, or an error: nothing was delivered, and no release is due (R106). -/
theorem recvAckBody_of_noByte {s : State} (e : nextRxAnswer 1 s = .ok [] ∨ nextRxAnswer 1 s = .err) :
    (recvAckBody s).phase = .open_ ∧ (recvAckBody s).result = some (.ack false false) := by
  rcases e with e | e <;> simp [recvAckBody, e, handshakeSampled, ackResult]

/-- Settles O40: the answer to a receive of one byte is one of three, and each fixes PHASE and the result. -/
theorem recvAckDecodesTheHandshake : Obligations.RecvAckDecodesTheHandshake := by
  refine ⟨by decide, fun s hf hp => ?body, fun _ hf hp => raises_ackReleaseOmitted hf hp (by decide),
    fun s hf hp => ?outOfOrder,
    fun _ _ hf ho h => performWord_raises_illegal (decode_of_strayOperand (by rw [ho]; decide) h) hf⟩
  case body =>
    have ha : s.phase ∈ admittedPhases .recvAck := by rw [hp]; decide
    exact ⟨recvAckBody s, _, exec_of_completes hf ha rfl, rfl, rfl, rfl, fun _ => recvAckBody_of_byte, recvAckBody_of_noByte,
      nextRxAnswer_one s, rfl, rfl, transportFrame_of_completes (.inr (.inl rfl)) rfl⟩
  case outOfOrder =>
    exact raises_handshakeOrder_of_not_admitted hf (by rcases hp with h | h | h <;> simp [h, admittedPhases])

/-! ### RECV -/

/-- No more bytes come than were asked for (spec/20_memory.md R53). -/
theorem length_le_of_nextRxAnswer {n : Nat} {s : State} {bs : Bytes} (h : nextRxAnswer n s = .ok bs) : bs.length ≤ n := by
  obtain ⟨a, ha⟩ := nextRxAnswer_allowed n s
  exact allowedAnswer_length (ha.symm.trans h)

theorem recvResult_of_all {n : Nat} {bs : Bytes} (h : bs.length = n) : recvResult n (.ok bs) = .data bs := if_pos h

theorem recvResult_of_wrong_length {n : Nat} {bs : Bytes} (h : bs.length ≠ n) :
    recvResult n (.ok bs) = .transportError (.received bs) := if_neg h

/-- Settles O41: the size is checked before the call; past it the debt is cleared whatever comes, and the bytes that came are
the result, as data where they are all that was owed. -/
theorem recvReturnsTheData : Obligations.RecvReturnsTheData := by
  refine ⟨encode_recv, fun n s hf hp => ?body,
    fun _ _ hf hp => raises_ackReleaseOmitted hf hp Instr.noConfusion, fun n s hf hp => ?outOfOrder,
    fun _ _ hf _ h => performWord_raises_illegal (decode_of_reservedBits h) hf⟩
  case body =>
    have ha : s.phase ∈ admittedPhases (.recv n) := by rw [hp]; exact List.mem_singleton_self _
    refine ⟨fun howed => ?_, fun hwrong => raises_of_body rfl hf ha (if_pos hwrong)⟩
    have hc : Completes (.recv n) s _ := ⟨howed, rfl⟩
    have hr := result_of_completes hc
    refine ⟨_, _, exec_of_completes hf ha hc, rfl, rfl, rfl, rfl, fun bs e hall => ?_, fun bs e hlen => ?_, fun e => ?_,
      rfl, rfl, transportFrame_of_completes (.inr (.inr ⟨n, rfl⟩)) hc⟩
    · rw [hr, completedResult, e, recvResult_of_all hall]
    · exact ⟨lt_of_le_of_ne (length_le_of_nextRxAnswer e) hlen,
        by rw [hr, completedResult, e, recvResult_of_wrong_length hlen]⟩
    · rw [hr, completedResult, e]; rfl
  case outOfOrder =>
    exact raises_handshakeOrder_of_not_admitted hf (by rcases hp with h | h | h <;> simp [h, admittedPhases])

end Sys2Proof.Machine
end

section
/-! Faults: the causes and their priority, fault entry and the sticky fault (spec/60_exceptions.md R110 to R114). -/

namespace Sys2Proof

/-! ### FAULT_REQ: a decoded word is its request's encoding (spec/30_encoding.md R65; log 15) -/

theorem operandOf_of_operandless {i : Instr} (h : opcodeOf i ∈ operandless) : operandOf i = 0#16 := by
  cases i with
  | start => rfl
  | stop => rfl
  | ackRelease => rfl
  | flush => rfl
  | recvAck => rfl
  | configure d => simp [opcodeOf, operandless] at h
  | byteOut b => simp [opcodeOf, operandless] at h
  | read n => simp [opcodeOf, operandless] at h
  | recv n => simp [opcodeOf, operandless] at h

/-- The words whose rsv is 0, by the sort of their opcode. -/
theorem encode_of_decode_fields {op : BitVec 4} {arg : Half} {i : Instr} (h : decode (op ++ 0#12 ++ arg) = some i) :
    encode i = op ++ 0#12 ++ arg := by
  rcases opcode_sorts op with hop | hop | rfl | rfl | rfl | rfl
  · rw [decode_of_reservedOp hop] at h; cases h
  · obtain ⟨j, rfl⟩ := exists_request_of_operandless hop
    rw [decode_operandless hop, noOperand, Option.ite_none_right_eq_some] at h
    obtain ⟨rfl, hj⟩ := h
    cases hj
    rw [encode, operandOf_of_operandless hop]
  · rw [decode_byteOut, Option.ite_none_right_eq_some] at h
    obtain ⟨hzero, hi⟩ := h
    cases hi
    rw [encode, operandOf, lowByte_append arg hzero, opcodeOf]
  · rw [decode_configure] at h; cases h; rfl
  · rw [decode_read] at h; cases h; rfl
  · rw [decode_recv] at h; cases h; rfl

theorem encode_of_decode {w : Word} {i : Instr} (h : decode w = some i) : encode i = w := by
  have hr : rsvField w = 0#12 := by
    by_contra hr
    rw [decode_of_reservedBits hr] at h; cases h
  have hw : opField w ++ 0#12 ++ argField w = w := by rw [← hr, fields_append]
  rw [← hw] at h
  exact (encode_of_decode_fields h).trans hw

end Sys2Proof

namespace Sys2Proof.Machine

/-! ### The lowest of the causes that apply (R110, R112) -/

/-- The code whose cause applies while no lower code's does. -/
def LowestCause (cause : FaultCode → Prop) (c : FaultCode) : Prop :=
  cause c ∧ ∀ c' : FaultCode, c'.code < c.code → ¬ cause c'

theorem FaultCode.code_injective {c d : FaultCode} (h : c.code = d.code) : c = d := by
  cases c <;> cases d <;> cases h <;> rfl

theorem FaultCode.code_le_bufferOverflow (c : FaultCode) : c.code ≤ FaultCode.bufferOverflow.code := by
  cases c <;> decide

theorem LowestCause.unique {cause : FaultCode → Prop} {c d : FaultCode} (hc : LowestCause cause c)
    (hd : LowestCause cause d) : c = d :=
  FaultCode.code_injective <|
    le_antisymm (not_lt.mp fun hlt => hc.2 d hlt hd.1) (not_lt.mp fun hlt => hd.2 c hlt hc.1)

theorem wordCause_of_decode {w : Word} {i : Instr} (h : decode w = some i) (s : State) : wordCause w s = causeOf i s := by
  funext c; simp only [wordCause, h]

theorem wordCause_of_illegal {w : Word} (h : decode w = none) (s : State) :
    wordCause w s = fun c => c = .illegalRequest := by
  funext c; simp only [wordCause, h]

/-! ### A request raises a code whose cause applies -/

theorem fault_of_raises {i : Instr} {s t : State} {c : FaultCode} (h : exec i s = .next t) (hr : Raises i s c) :
    t.fault = some c := by
  cases h.symm.trans hr
  exact raise_fault c _ s

theorem raises_unique {i : Instr} {s : State} {c d : FaultCode} (hc : Raises i s c) (hd : Raises i s d) : c = d :=
  Option.some.inj (fault_of_raises hc hd)

/-- A request that completes raises nothing. -/
theorem not_raises_of_completes {i : Instr} {s t : State} {c : FaultCode} (hf : s.fault = none) (h : exec i s = .next t)
    (hc : Completes i s t) : ¬ Raises i s c := fun hr => by
  have hset := fault_of_raises h hr
  rw [completes_fault hc, hf] at hset; cases hset

/-- Admission reads the matrix of spec/70_reset_and_hazards.md R128. -/
theorem admission_eq_matrixCell (i : Instr) (p : Phase) : admission i p = matrixCell i p := by
  cases i <;> cases p <;> rfl

theorem admission_faults {i : Instr} {p : Phase} {c : FaultCode} (h : admission i p = some c) :
    (c = .ackReleaseOmitted ∧ p = .releaseDue ∧ i ≠ .ackRelease) ∨ c = .handshakeOrder := by
  unfold admission at h
  split at h
  case isTrue hdue => cases h; exact .inl ⟨rfl, hdue⟩
  case isFalse =>
    split at h
    case isTrue => cases h
    case isFalse => cases h; exact .inr rfl

theorem causeOf_of_admission {i : Instr} {s : State} {c : FaultCode} (h : admission i s.phase = some c) :
    causeOf i s c := by
  rcases admission_faults h with ⟨rfl, hdue⟩ | rfl
  · exact hdue
  · exact (admission_eq_matrixCell i s.phase).symm.trans h

theorem causeOf_of_raises {i : Instr} {s : State} {c : FaultCode} (hf : s.fault = none) (h : Raises i s c) :
    causeOf i s c := by
  cases ha : admission i s.phase with
  | some d =>
    rw [← raises_unique (exec_of_not_admitted hf ha) h]
    exact causeOf_of_admission ha
  | none =>
    rcases exec_of_admitted i s hf ((admission_none_iff i s.phase).mp ha) with ⟨t, hc, e⟩ | ⟨d, -, hd, -, hr⟩ | ⟨-, -, e⟩
    · exact absurd h (not_raises_of_completes hf e hc)
    · rwa [← raises_unique hr h]
    · cases e.symm.trans h

/-! ### A request some code's cause applies to raises that code or a lower one -/

/-- The admission faults come before every check of a body, and have the lower codes. -/
theorem raises_le_of_body {i : Instr} {s : State} {k : Nat} (hf : s.fault = none) (hk : FaultCode.handshakeOrder.code ≤ k)
    (hbody : s.phase ∈ admittedPhases i → ∃ d : FaultCode, d.code ≤ k ∧ Raises i s d) :
    ∃ d : FaultCode, d.code ≤ k ∧ Raises i s d := by
  cases ha : admission i s.phase with
  | none => exact hbody ((admission_none_iff i s.phase).mp ha)
  | some d =>
    have hd : d.code ≤ FaultCode.handshakeOrder.code := by
      rcases admission_faults ha with ⟨rfl, -⟩ | rfl <;> decide
    exact ⟨d, hd.trans hk, exec_of_not_admitted hf ha⟩

/-- READ checks its length before its divisor (R99). -/
theorem read_raises_le {n : Half} {s : State} {c : FaultCode} (hf : s.fault = none)
    (hc : FaultCode.readLengthUnsupported.code ≤ c.code) (he : readBody 1#16 s = .error c) :
    ∃ d : FaultCode, d.code ≤ c.code ∧ Raises (.read n) s d := by
  refine raises_le_of_body hf (le_trans (by decide) hc) fun ha => ?_
  by_cases hn : n = 1#16
  · subst hn; exact ⟨c, le_rfl, raises_of_body rfl hf ha he⟩
  · exact ⟨_, hc, raises_of_body rfl hf ha (readBody_of_length s hn)⟩

/-- A request that completes had room for its string (spec/20_memory.md R45). -/
theorem fits_of_completes {i : Instr} {s t : State} {bs : Bytes} (hs : stringOf s.lits.val s.div i = some bs)
    (h : Completes i s t) : s.cur + bs.length ≤ Config.cap := by
  cases i with
  | start => cases hs; exact h.1
  | stop => cases hs; exact h.1
  | byteOut b => cases hs; exact h.2.1
  | ackRelease => cases hs; exact h.1
  | read n =>
    obtain ⟨d, -, hd, -, hfit, -⟩ := h
    rw [hd] at hs; cases hs
    exact hfit
  | configure d => cases hs
  | flush => cases hs
  | recvAck => cases hs
  | recv n => cases hs

theorem raises_le_of_overflow {i : Instr} {s : State} {bs : Bytes} (hf : s.fault = none)
    (hs : stringOf s.lits.val s.div i = some bs) (hover : Config.cap < s.cur + bs.length) :
    ∃ d : FaultCode, d.code ≤ FaultCode.bufferOverflow.code ∧ Raises i s d := by
  refine raises_le_of_body hf (by decide) fun ha => ?_
  rcases exec_of_admitted i s hf ha with ⟨t, hc, -⟩ | ⟨d, -, -, -, hr⟩ | ⟨rfl, -, -⟩
  · exact absurd (fits_of_completes hs hc) (Nat.not_le.mpr hover)
  · exact ⟨d, d.code_le_bufferOverflow, hr⟩
  · cases hs

theorem raises_le_of_causeOf {i : Instr} {s : State} {c : FaultCode} (hf : s.fault = none) (h : causeOf i s c) :
    ∃ d : FaultCode, d.code ≤ c.code ∧ Raises i s d := by
  cases c with
  | illegalRequest => exact h.elim
  | ackReleaseOmitted => exact ⟨_, le_rfl, raises_ackReleaseOmitted hf h.1 h.2⟩
  | handshakeOrder => exact ⟨_, le_rfl, exec_of_not_admitted hf ((admission_eq_matrixCell i s.phase).trans h)⟩
  | readLengthUnsupported =>
    obtain ⟨n, rfl, hn⟩ := h
    exact raises_le_of_body hf (by decide) fun ha =>
      ⟨_, le_rfl, raises_of_body rfl hf ha (readBody_of_length s fun e => hn (congrArg BitVec.toNat e))⟩
  | divisorUnset =>
    obtain ⟨n, rfl, hd⟩ := h
    exact read_raises_le hf (by decide) (readBody_of_divisorUnset hd)
  | loopCountZero =>
    obtain ⟨n, d, rfl, hd, h6⟩ := h
    exact read_raises_le hf (by decide) (readBody_of_loopCountZero hd ((loopCount_eq_zero_iff d).mpr h6))
  | mixedResponse =>
    obtain ⟨b, rfl, howed⟩ := h
    exact raises_le_of_body hf (by decide) fun ha => ⟨_, le_rfl, raises_of_body rfl hf ha (if_pos howed)⟩
  | recvSizeMismatch =>
    obtain ⟨n, rfl, hn⟩ := h
    exact raises_le_of_body hf (by decide) fun ha => ⟨_, le_rfl, raises_of_body rfl hf ha (if_pos hn)⟩
  | bufferOverflow =>
    obtain ⟨bs, hs, hover⟩ := h
    exact raises_le_of_overflow hf hs hover

/-! ### Performing without a fault: fault entry with the lowest cause, or no cause and no fault -/

theorem exec_lowestCause_or_none {i : Instr} {s t : State} (hf : s.fault = none) (h : exec i s = .next t) :
    (∃ c, LowestCause (causeOf i s) c ∧ t = raise c (encode i) s) ∨ ((∀ c, ¬ causeOf i s c) ∧ t.fault = none) := by
  rcases exec_cases h with ⟨c, hset, -⟩ | ⟨c, -, -, hr, rfl⟩ | ⟨-, -, hc⟩
  · rw [hf] at hset; cases hset
  · refine .inl ⟨c, ⟨causeOf_of_raises hf hr, fun c' hlt hc' => ?_⟩, rfl⟩
    obtain ⟨d, hle, hd⟩ := raises_le_of_causeOf hf hc'
    rw [raises_unique hd hr] at hle
    exact Nat.not_le.mpr hlt hle
  · refine .inr ⟨fun c hcause => ?_, (completes_fault hc).trans hf⟩
    obtain ⟨d, -, hd⟩ := raises_le_of_causeOf hf hcause
    exact not_raises_of_completes hf h hc hd

/-- The same of every word; an illegal one has the lowest code of all as its one cause. -/
theorem performWord_lowestCause_or_none {w : Word} {s t : State} (hf : s.fault = none) (h : performWord w s = .next t) :
    (∃ c, LowestCause (wordCause w s) c ∧ t = raise c w s) ∨ ((∀ c, ¬ wordCause w s c) ∧ t.fault = none) := by
  rcases performWord_cases h with ⟨i, hd, he⟩ | ⟨hd, rfl⟩
  · have hcases := exec_lowestCause_or_none hf he
    rwa [encode_of_decode hd, ← wordCause_of_decode hd] at hcases
  · rw [wordCause_of_illegal hd]
    refine .inl ⟨.illegalRequest, ⟨rfl, ?_⟩, performIllegal_of_no_fault hf⟩
    rintro _ hlt rfl
    exact lt_irrefl _ hlt

/-- Settles O17: a fault from a state with none is `raise` of the word performed, which writes FAULT, FAULT_REQ and the
result. -/
theorem faultEntryIsPrecise : Obligations.FaultEntryIsPrecise := by
  intro w s t c hf h hc
  rcases performWord_lowestCause_or_none hf h with ⟨d, -, rfl⟩ | ⟨-, hno⟩
  · cases hc
    exact ⟨rfl, rfl, rfl, rfl, rfl, rfl, rfl, rfl, rfl, ⟨rfl, rfl, rfl, rfl, rfl⟩⟩
  · rw [hno] at hc; cases hc

/-- Settles O19: the code raised is a lowest cause, and there is only one such; without a cause nothing is raised. -/
theorem lowestFaultCodeWins : Obligations.LowestFaultCodeWins := by
  intro w s t hf h
  rcases performWord_lowestCause_or_none hf h with ⟨d, hd, rfl⟩ | ⟨hno, ht⟩
  · refine ⟨fun c => ⟨fun hc => ?_, fun hc => ?_⟩, ⟨fun hc => ?_, fun hno => absurd hd.1 (hno d)⟩, fun _ => ⟨rfl, rfl, rfl⟩⟩
    · cases hc; exact hd
    · exact congrArg some (hd.unique hc)
    · cases hc
  · refine ⟨fun c => ⟨fun hc => ?_, fun hc => absurd hc.1 (hno c)⟩, ⟨fun _ => hno, fun _ => ht⟩, fun hset => absurd ht hset⟩
    rw [ht] at hc; cases hc

/-! ### The sticky fault (R114) -/

theorem performWord_of_fault {s : State} {c : FaultCode} (w : Word) (hf : s.fault = some c) :
    performWord w s = .next (reply (.fault c) s) := by
  cases hd : decode w with
  | none => rw [performWord_of_illegal hd, performIllegal_of_fault hf]
  | some i => simp only [performWord, hd, exec_of_fault hf]

theorem step_of_request {s : State} {w : Word} {rest : List Input} (h : s.inputs = .request w :: rest) :
    step s = performWord w { s with inputs := rest } := by simp only [step, takeInput, h]

theorem step_of_reset {s : State} {rest : List Input} (h : s.inputs = .reset :: rest) :
    step s = .next (resetSession { s with inputs := rest }) := by simp only [step, takeInput, h]

/-- The state after the words ws, presented while FAULT is c: they are taken from the request port, and the result port
shows the fault if there was one. -/
def afterRefusals (c : FaultCode) (ws : List Word) (rest : List Input) (s : State) : State :=
  { s with inputs := rest, result := if ws = [] then s.result else some (.fault c) }

theorem afterRefusals_nil {c : FaultCode} {rest : List Input} {s : State} (h : s.inputs = rest) :
    afterRefusals c [] rest s = s := by
  subst h; rfl

/-- One refusal and then those of ws are the refusals of w :: ws. -/
theorem afterRefusals_cons (c : FaultCode) (w : Word) (ws : List Word) (mid rest : List Input) (s : State) :
    afterRefusals c ws rest (afterRefusals c [w] mid s) = afterRefusals c (w :: ws) rest s := by
  simp [afterRefusals]

theorem step_of_fault {s : State} {c : FaultCode} {w : Word} {rest : List Input} (hf : s.fault = some c)
    (h : s.inputs = .request w :: rest) : step s = .next (afterRefusals c [w] rest s) :=
  (step_of_request h).trans (performWord_of_fault w hf)

/-- A run over requests while FAULT is set, by induction on the requests, with k steps after them. -/
theorem run_requests_of_fault {c : FaultCode} (k : Nat) (rest : List Input) (ws : List Word) (s : State)
    (hf : s.fault = some c) (hin : s.inputs = ws.map Input.request ++ rest) :
    core.run (ws.length + k) s = core.run k (afterRefusals c ws rest s) := by
  induction ws generalizing s with
  | nil => rw [afterRefusals_nil (rest := rest) hin, List.length_nil, Nat.zero_add]
  | cons w ws ih =>
    calc core.run ((w :: ws).length + k) s
      _ = core.run (ws.length + k + 1) s := by rw [List.length_cons, Nat.add_right_comm]
      _ = core.run (ws.length + k) (afterRefusals c [w] _ s) := run_succ _ _ _ (step_of_fault hf hin)
      _ = core.run k (afterRefusals c ws rest (afterRefusals c [w] _ s)) := ih _ hf rfl
      _ = core.run k (afterRefusals c (w :: ws) rest s) := congrArg (core.run k) (afterRefusals_cons c w ws _ rest s)

/-- Settles O18: a refused request changes the ports alone, so by induction a run of them does; the reset after them is then
taken as the next input. -/
theorem faultsAreSticky : Obligations.FaultsAreSticky := by
  refine ⟨fun w s c hf => ?oneWord, fun ws rest s c hf hin => ?anyRun, fun ws rest s c hf hin => ?thenReset,
    fun s c hf => by simp [cleanEnd, hf]⟩
  case oneWord =>
    exact ⟨_, performWord_of_fault w hf, rfl, ⟨rfl, rfl, rfl, rfl, rfl, rfl, rfl, rfl, rfl⟩, ⟨rfl, rfl, rfl, rfl, rfl⟩⟩
  case anyRun =>
    exact ⟨afterRefusals c ws rest s, run_requests_of_fault 0 rest ws s hf hin,
      ⟨rfl, rfl, rfl, rfl, rfl, rfl, rfl, rfl, rfl⟩, rfl, rfl, rfl, fun hne => if_neg hne⟩
  case thenReset =>
    have hreset := step_of_reset (s := afterRefusals c ws (.reset :: rest) s) rfl
    exact ⟨_, (run_requests_of_fault 1 _ ws s hf hin).trans (run_succ 0 _ _ hreset), rfl, rfl⟩

end Sys2Proof.Machine
end

section
/-! The reset input, admission and the clean end (spec/70_reset_and_hazards.md R123, R128, R137). -/

namespace Sys2Proof.Machine

/-! ### Admission (R128) -/

/-- An admitted request faults only with a code past the admission codes. -/
theorem handshakeOrder_lt_of_admitted {i : Instr} {s t : State} {c : FaultCode} (hf : s.fault = none)
    (ha : s.phase ∈ admittedPhases i) (h : exec i s = .next t) (hc : t.fault = some c) :
    FaultCode.handshakeOrder.code < c.code := by
  rcases exec_of_admitted i s hf ha with ⟨u, hu, e⟩ | ⟨d, hd, -, -, hr⟩ | ⟨-, -, e⟩
  · cases h.symm.trans e
    rw [completes_fault hu, hf] at hc; cases hc
  · cases (fault_of_raises h hr).symm.trans hc
    exact hd
  · cases h.symm.trans e

/-- Settles O20: the matrix is `admission`, whose faults come before the body; past it, a body's faults have codes above
both of the matrix's. -/
theorem admissionMatrix : Obligations.AdmissionMatrix := by
  refine ⟨admission_eq_matrixCell, fun i s c hf hcell => ?refused, fun i s => raises_ackReleaseOmitted,
    fun i s t hf hcell h => ?admitted⟩
  case refused => exact exec_of_not_admitted hf ((admission_eq_matrixCell i s.phase).trans hcell)
  case admitted =>
    have ha := (admission_none_iff i s.phase).mp ((admission_eq_matrixCell i s.phase).trans hcell)
    have hpast : ∀ c, t.fault = some c → FaultCode.handshakeOrder.code < c.code :=
      fun _ => handshakeOrder_lt_of_admitted hf ha h
    exact ⟨fun hc => absurd (hpast _ hc) (by decide), fun hc => absurd (hpast _ hc) (by decide)⟩

/-! ### The reset input (R123) -/

/-- Settles O10: the step is `resetSession`, which reads no element of the old session, FAULT included. -/
theorem resetRestoresTheSession : Obligations.ResetRestoresTheSession := by
  intro s rest hin
  exact ⟨_, step_of_reset hin, resetSession_div _, resetSession_cur _, read_nil, resetSession_phase _,
    resetSession_dataOwed _, resetSession_rxOwed _, resetSession_fault _, resetSession_faultReq _, resetSession_hist _⟩

/-! ### The clean end (R137) -/

theorem cleanEnd_iff (s : State) :
    cleanEnd s = true ↔ s.fault = none ∧ s.phase = .open_ ∧ s.cur = 0 ∧ s.dataOwed = 0 := by
  simp only [cleanEnd, Bool.and_eq_true, beq_iff_eq, and_assoc]

/-- Settles O47: CUR 0 leaves the unit empty, and in OPEN the invariant has nothing owed. -/
theorem cleanEndOwesNothing : Obligations.CleanEndOwesNothing := by
  refine ⟨cleanEnd_iff, fun s hinv hclean => ?owesNothing, fun s c hf => ?faulted⟩
  case owesNothing =>
    obtain ⟨-, hopen, hcur, -⟩ := (cleanEnd_iff s).mp hclean
    exact ⟨unitOf_empty s hcur, hinv.nothingOwed (.inl hopen)⟩
  case faulted =>
    refine Bool.eq_false_iff.mpr fun hclean => ?_
    obtain ⟨hnone, -⟩ := (cleanEnd_iff s).mp hclean
    rw [hf] at hnone; cases hnone

end Sys2Proof.Machine
end

section
/-! The request words: the decoder against the encoder, the opcode table and the assembler (spec/30_encoding.md R61 to R65,
R68; opcode_table.json). -/

namespace Sys2Proof

/-! ### The round trip (R65) -/

/-- A byte extended to an operand has upper byte 0 and itself as lower byte. -/
theorem extractLsb'_zero_append (b : Byte) :
    (0#8 ++ b : Half).extractLsb' 8 8 = 0#8 ∧ (0#8 ++ b : Half).extractLsb' 0 8 = b :=
  ⟨BitVec.extractLsb'_append_eq_left, BitVec.extractLsb'_append_eq_right⟩

theorem decode_encode (i : Instr) : decode (encode i) = some i := by
  cases i with
  | configure d => exact decode_configure d
  | start => exact decode_operandless (by decide) 0#16
  | stop => exact decode_operandless (by decide) 0#16
  | byteOut b =>
    obtain ⟨hupper, hlower⟩ := extractLsb'_zero_append b
    rw [encode, opcodeOf, operandOf, decode_byteOut, if_pos hupper, hlower]
  | ackRelease => exact decode_operandless (by decide) 0#16
  | read n => exact decode_read n
  | flush => exact decode_operandless (by decide) 0#16
  | recvAck => exact decode_operandless (by decide) 0#16
  | recv n => exact decode_recv n

/-- Settles O1: each direction by the sort of the opcode; two words with one decoding are both its encoding. -/
theorem decodeOfEncode : Obligations.DecodeOfEncode :=
  ⟨decode_encode, fun _ _ => encode_of_decode, fun _ _ _ hw hv => (encode_of_decode hw).symm.trans (encode_of_decode hv)⟩

/-! ### The opcode table -/

/-- The mnemonic of a request (R62). -/
def mnemonicOf : Instr → String
  | .configure _ => "CONFIGURE"
  | .start => "START"
  | .stop => "STOP"
  | .byteOut _ => "BYTE_OUT"
  | .ackRelease => "ACK_RELEASE"
  | .read _ => "READ"
  | .flush => "FLUSH"
  | .recvAck => "RECV_ACK"
  | .recv _ => "RECV"

/-- The operand bits a request's row fixes: none where the operand has 16 bits, the upper byte of BYTE_OUT's, all of an
operand-less request's. -/
def fixedBits : Instr → Half
  | .configure _ => 0#16
  | .start => 0xFFFF#16
  | .stop => 0xFFFF#16
  | .byteOut _ => 0xFF00#16
  | .ackRelease => 0xFFFF#16
  | .read _ => 0#16
  | .flush => 0xFFFF#16
  | .recvAck => 0xFFFF#16
  | .recv _ => 0#16

/-- The row of a request: op, rsv and the fixed operand bits are compared. -/
def rowOf (i : Instr) : OpcodeRow := ⟨mnemonicOf i, opcodeOf i ++ 0#12 ++ 0#16, 0xF#4 ++ 0xFFF#12 ++ fixedBits i⟩

theorem opcodeTable_eq : opcodeTable =
    [.configure 0, .start, .stop, .byteOut 0, .ackRelease, .read 0, .flush, .recvAck, .recv 0].map rowOf := by decide

theorem exists_rowOf {r : OpcodeRow} (h : r ∈ opcodeTable) : ∃ i, rowOf i = r := by
  rw [opcodeTable_eq] at h
  obtain ⟨i, -, hi⟩ := List.mem_map.mp h
  exact ⟨i, hi⟩

/-- A request's row is in the table, whatever its operand. -/
theorem rowOf_mem (i : Instr) : rowOf i ∈ opcodeTable := by
  rw [opcodeTable_eq]
  cases i with
  | configure d => exact List.mem_map.mpr ⟨.configure 0, by decide, rfl⟩
  | byteOut b => exact List.mem_map.mpr ⟨.byteOut 0, by decide, rfl⟩
  | read n => exact List.mem_map.mpr ⟨.read 0, by decide, rfl⟩
  | recv n => exact List.mem_map.mpr ⟨.recv 0, by decide, rfl⟩
  | _ => exact List.mem_map_of_mem (by decide)

/-- A word is a request's row's when op and rsv are the request's and the operand bits the row fixes are 0. -/
theorem rowOf_matchesWord_iff (i : Instr) (w : Word) : (rowOf i).matchesWord w = true ↔
    opField w = opcodeOf i ∧ rsvField w = 0#12 ∧ argField w &&& fixedBits i = 0#16 := by
  have hand : w &&& (rowOf i).mask = opField w ++ rsvField w ++ (argField w &&& fixedBits i) := by
    conv_lhs => rw [← fields_append w, rowOf, BitVec.and_append, BitVec.and_append]
    exact congrArg₂ (fun op rsv => op ++ rsv ++ _) BitVec.and_allOnes BitVec.and_allOnes
  rw [OpcodeRow.matchesWord, beq_iff_eq, hand, rowOf]
  constructor
  · intro h
    exact ⟨by simpa using congrArg opField h, by simpa using congrArg rsvField h, by simpa using congrArg argField h⟩
  · rintro ⟨ho, hr, ha⟩
    rw [ho, hr, ha]

/-- A request's own operand has the fixed bits 0. -/
theorem operandOf_and_fixedBits (i : Instr) : operandOf i &&& fixedBits i = 0#16 := by
  cases i with
  | configure d => exact BitVec.and_zero
  | read n => exact BitVec.and_zero
  | recv n => exact BitVec.and_zero
  | byteOut b =>
    change (0#8 ++ b) &&& (0xFF#8 ++ 0#8) = 0#8 ++ 0#8
    rw [BitVec.and_append, BitVec.zero_and, BitVec.and_zero]
  | _ => rfl

theorem matchesWord_encode (i : Instr) : (rowOf i).matchesWord (encode i) = true := by
  obtain ⟨ho, hr, ha⟩ := Laws.encode_fields i
  exact (rowOf_matchesWord_iff i _).mpr ⟨ho, hr, by rw [ha, operandOf_and_fixedBits]⟩

/-- The operand bits a row fixes leave out R64's stray operands and wide bytes, so its words decode. -/
theorem decode_isSome_of_fixedBits {i : Instr} {arg : Half} (h : arg &&& fixedBits i = 0#16) :
    (decode (opcodeOf i ++ 0#12 ++ arg)).isSome = true := by
  have hbare (ho : opcodeOf i ∈ operandless) (hfix : arg &&& BitVec.allOnes 16 = 0#16) :
      (decode (opcodeOf i ++ 0#12 ++ arg)).isSome = true := by
    rw [decode_operandless ho, noOperand, if_pos (BitVec.and_allOnes.symm.trans hfix)]; rfl
  cases i with
  | configure d => rw [opcodeOf, decode_configure]; rfl
  | start => exact hbare (by decide) h
  | stop => exact hbare (by decide) h
  | byteOut b =>
    have hupper : arg.extractLsb' 8 8 = 0#8 := by
      have hx := congrArg (BitVec.extractLsb' 8 8) h
      rw [fixedBits, BitVec.extractLsb'_and] at hx
      exact BitVec.and_allOnes.symm.trans hx
    rw [opcodeOf, decode_byteOut, if_pos hupper]; rfl
  | ackRelease => exact hbare (by decide) h
  | read n => rw [opcodeOf, decode_read]; rfl
  | flush => exact hbare (by decide) h
  | recvAck => exact hbare (by decide) h
  | recv n => rw [opcodeOf, decode_recv]; rfl

/-- The rows of the table differ in their opcode. -/
theorem eq_of_pattern_opField : ∀ r ∈ opcodeTable, ∀ q ∈ opcodeTable, opField r.pattern = opField q.pattern → r = q := by
  decide

theorem opField_pattern_of_matches {r : OpcodeRow} {w : Word} (hr : r ∈ opcodeTable) (h : r.matchesWord w = true) :
    opField r.pattern = opField w := by
  obtain ⟨i, rfl⟩ := exists_rowOf hr
  rw [rowOf, opField_append, ((rowOf_matchesWord_iff i w).mp h).1]

/-- Settles O4: a word that decodes is its request's encoding, which the request's row matches; a row's words decode, request
by request; and a word's opcode tells its row. -/
theorem decodeMatchesOpcodeTable : Obligations.DecodeMatchesOpcodeTable := by
  refine ⟨fun w => ⟨fun h => ?decoded, ?matched⟩, fun w r q hr hq hrw hqw => ?oneRow⟩
  case decoded =>
    obtain ⟨i, hi⟩ := Option.isSome_iff_exists.mp h
    exact ⟨rowOf i, rowOf_mem i, encode_of_decode hi ▸ matchesWord_encode i⟩
  case matched =>
    rintro ⟨r, hr, hw⟩
    obtain ⟨i, rfl⟩ := exists_rowOf hr
    obtain ⟨ho, hrsv, hfix⟩ := (rowOf_matchesWord_iff i w).mp hw
    rw [← fields_append w, ho, hrsv]
    exact decode_isSome_of_fixedBits hfix
  case oneRow =>
    exact eq_of_pattern_opField r hr q hq
      ((opField_pattern_of_matches hr hrw).trans (opField_pattern_of_matches hq hqw).symm)

/-- Settles O5, each word by the decoder's own evaluation. -/
theorem sampleWordsDecode : Obligations.SampleWordsDecode := by
  unfold Obligations.SampleWordsDecode; decide

namespace Machine

/-! ### The assembler and the code tables -/

/-- Settles O7: the mnemonic is compared first, so for each one the operand's range, or its absence, is what is left. -/
theorem assemblerOperandRanges : Obligations.AssemblerOperandRanges := by
  intro n
  refine ⟨rfl, rfl, rfl, rfl, fun m hm => ?_⟩
  simp only [List.mem_cons, List.not_mem_nil, or_false] at hm
  rcases hm with rfl | rfl | rfl | rfl | rfl <;> exact ⟨rfl, rfl⟩

/-- Settles O8, table by table. -/
theorem codesOfTheTables : Obligations.CodesOfTheTables := ⟨rfl, rfl, rfl, fun _ _ _ _ _ _ => rfl⟩

end Machine

end Sys2Proof
end

section
/-! The invariant, and what no step changes (spec/10_state.md section 6, R32, R36). -/

namespace Sys2Proof.Machine

/-! ### The invariant at reset -/

theorem blockInv_resetOf (l : AdmittedLits) : BlockInv (State.resetOf l) := by
  constructor <;> simp [Memory.wf]

/-- Settles O13: every list of the reset state is empty and every count 0. -/
theorem resetMeetsInvariant : Obligations.ResetMeetsInvariant := ⟨blockInv_resetOf reference, blockInv_resetOf, rfl⟩

/-! ### The invariant over a step -/

/-- The invariant reads neither DIV nor the ports. -/
theorem BlockInv.elsewhere {s : State} (h : BlockInv s) (div : Option Half) (result : Option Result) (inputs : List Input)
    (txAnswers : List TxAnswer) (rxAnswers : List RxAnswer) (draws : Nat) :
    BlockInv { s with div, result, inputs, txAnswers, rxAnswers, draws } :=
  { h with }

theorem blockInv_reply {s : State} (h : BlockInv s) (r : Result) : BlockInv (reply r s) := h.elsewhere _ _ _ _ _ _

/-- Fault entry sets both fault registers, and writes nothing else the invariant reads (R113). -/
theorem blockInv_raise {s : State} (h : BlockInv s) (c : FaultCode) (w : Word) : BlockInv (raise c w s) :=
  { h with faultPairs := rfl }

/-- The cells below CUR are held after a write at CUR. -/
theorem held_write {s : State} {bs : Bytes} (h : ∀ a, a < s.cur → (s.buf.read a).isSome = true) (a : Nat)
    (ha : a < s.cur + bs.length) : ((s.buf.write s.cur bs).read a).isSome = true := by
  by_cases hold : a < s.cur
  · rw [read_write_outside _ _ _ _ (.inl hold)]; exact h a hold
  · obtain ⟨k, rfl⟩ := Nat.exists_eq_add_of_le (Nat.not_lt.mp hold)
    have hk : k < bs.length := by omega
    rw [read_write_inside _ _ _ _ hk, List.getElem?_eq_getElem hk]; rfl

/-- An Append keeps the invariant, with a PHASE and a DATA_OWED that its string pays for: OPEN, with at least four bytes for
each READ more, or ACK_QUEUED without a READ and with BYTE_OUT's bytes. -/
theorem blockInv_pushed {s : State} {bs : Bytes} {p : Phase} {n : Nat} (h : BlockInv s) (hrx : s.rxOwed = 0)
    (hfit : s.cur + bs.length ≤ Config.cap) (hn : 4 * n ≤ 4 * s.dataOwed + bs.length)
    (hp : p = .open_ ∨ p = .ackQueued ∧ n = 0 ∧ s.lits.val.boHead.length + 1 + s.lits.val.boTail.length ≤ bs.length) :
    BlockInv { pushed s bs with phase := p, dataOwed := n } where
  bufferCanonical := write_keeps_wf _ _ _ h.bufferCanonical hfit
  cursorInBuffer := hfit
  cellsBelowCursorHeld := held_write h.cellsBelowCursorHeld
  nothingOwed _ := hrx
  handshakeOwed e := by rcases hp with rfl | ⟨rfl, -, -⟩ <;> cases e
  readDataOwed e := by rcases hp with rfl | ⟨rfl, -, -⟩ <;> cases e
  readsOnlyWhileOpen hpos := hp.resolve_right fun hq => Nat.ne_of_gt hpos hq.2.1
  emptyAwaiting e := by rcases hp with rfl | ⟨rfl, -, -⟩ <;> simp at e
  byteOutQueued e := by
    rcases hp with rfl | ⟨-, -, hlen⟩
    · cases e
    · exact hlen.trans (Nat.le_add_left _ _)
  readsFillBuffer := by
    have := h.readsFillBuffer
    show 4 * n ≤ s.cur + bs.length
    omega
  owedInBuffer := h.owedInBuffer
  faultPairs := h.faultPairs
  answersBounded := h.answersBounded

/-- The answers in a longer HIST are bounded where the new event's is. -/
theorem answersBounded_append {hist : List Event} {e : Event}
    (h : ∀ n bs, Event.recv n (.ok bs) ∈ hist → bs.length ≤ n) (he : ∀ n bs, e = .recv n (.ok bs) → bs.length ≤ n) :
    ∀ n bs, Event.recv n (.ok bs) ∈ hist ++ [e] → bs.length ≤ n := by
  intro n bs hmem
  rcases List.mem_append.mp hmem with hold | hnew
  · exact h n bs hold
  · exact he n bs (List.mem_singleton.mp hnew).symm

/-- The emptied buffer with whatever is owed next keeps the invariant: FLUSH and the receives end in such a state. -/
theorem blockInv_emptied {s t : State} (h : BlockInv s) (hf : TransportFrame s t) (hbuf : t.buf = s.buf) (hcur : t.cur = 0)
    (hdata : t.dataOwed = 0) (hrx : t.rxOwed ≤ Config.cap)
    (howed : (t.phase = .open_ ∨ t.phase = .releaseDue) ∧ t.rxOwed = 0 ∨ t.phase = .ackInFlight ∧ t.rxOwed = 1
      ∨ t.phase = .dataInFlight ∧ 1 ≤ t.rxOwed)
    (hhist : ∀ n bs, Event.recv n (.ok bs) ∈ t.hist → bs.length ≤ n) : BlockInv t where
  bufferCanonical := hbuf ▸ h.bufferCanonical
  cursorInBuffer := by rw [hcur]; exact Nat.zero_le _
  cellsBelowCursorHeld a ha := by omega
  nothingOwed e := by
    rcases howed with ⟨-, h0⟩ | ⟨hp, -⟩ | ⟨hp, -⟩
    · exact h0
    · simp [hp] at e
    · simp [hp] at e
  handshakeOwed e := by
    rcases howed with ⟨hp, -⟩ | ⟨-, h1⟩ | ⟨hp, -⟩
    · simp [e] at hp
    · exact h1
    · simp [hp] at e
  readDataOwed e := by
    rcases howed with ⟨hp, -⟩ | ⟨hp, -⟩ | ⟨-, h1⟩
    · simp [e] at hp
    · simp [hp] at e
    · exact h1
  readsOnlyWhileOpen hpos := absurd hdata (Nat.ne_of_gt hpos)
  emptyAwaiting _ := hcur
  byteOutQueued e := by simp [e] at howed
  readsFillBuffer := by rw [hdata]; exact Nat.zero_le _
  owedInBuffer := hrx
  faultPairs := by rw [hf.fault, hf.faultReq]; exact h.faultPairs
  answersBounded := hhist

/-- FLUSH: what its unit owes fits the buffer, since each READ took four bytes. -/
theorem blockInv_flushBody {s : State} (h : BlockInv s) (ha : s.phase ∈ admittedPhases .flush) : BlockInv (flushBody s) := by
  have hfill := h.readsFillBuffer
  have hcur := h.cursorInBuffer
  have hframe : TransportFrame s (flushBody s) := transportFrame_of_completes (.inl rfl) ⟨hcur, rfl⟩
  have hhist : ∀ n bs, Event.recv n (.ok bs) ∈ (flushBody s).hist → bs.length ≤ n :=
    answersBounded_append h.answersBounded fun n bs e => Event.noConfusion e
  simp only [admittedPhases, List.mem_cons, List.not_mem_nil, or_false] at ha
  rcases ha with hopen | hqueued
  · rcases Nat.eq_zero_or_pos s.dataOwed with hnone | hreads
    · obtain ⟨hp, hrx, hd⟩ := flushBody_of_open_noReads hopen hnone
      have h0 := hrx.trans (h.nothingOwed (.inl hopen))
      exact blockInv_emptied h hframe rfl rfl hd (by rw [h0]; exact Nat.zero_le _) (.inl ⟨.inl hp, h0⟩) hhist
    · obtain ⟨hp, hrx, hd⟩ := flushBody_of_open_reads hopen hreads
      exact blockInv_emptied h hframe rfl rfl hd (by omega) (.inr (.inr ⟨hp, by omega⟩)) hhist
  · obtain ⟨hp, hrx, hd⟩ := flushBody_of_ackQueued hqueued
    exact blockInv_emptied h hframe rfl rfl (hd.trans (dataOwed_eq_zero_of_ackQueued h hqueued))
      (by rw [hrx]; decide) (.inr (.inl ⟨hp, hrx⟩)) hhist

/-- While a response is awaited nothing is buffered, READs included. -/
theorem empty_of_awaiting {s : State} (h : BlockInv s) (hp : s.phase = .ackInFlight ∨ s.phase = .dataInFlight) :
    s.cur = 0 ∧ s.dataOwed = 0 := by
  refine ⟨h.emptyAwaiting (hp.imp_right .inr), Nat.eq_zero_of_not_pos fun hpos => ?_⟩
  rcases hp with hp | hp <;> simp [h.readsOnlyWhileOpen hpos] at hp

/-- A receive ends with nothing owed. -/
theorem blockInv_received {s t : State} {n : Nat} (h : BlockInv s) (hp : s.phase = .ackInFlight ∨ s.phase = .dataInFlight)
    (hf : TransportFrame s t) (hbuf : t.buf = s.buf) (hcur : t.cur = s.cur) (hdata : t.dataOwed = s.dataOwed)
    (hrx : t.rxOwed = 0) (hend : t.phase = .open_ ∨ t.phase = .releaseDue)
    (hhist : t.hist = s.hist ++ [.recv n (nextRxAnswer n s)]) : BlockInv t := by
  obtain ⟨hcur0, hdata0⟩ := empty_of_awaiting h hp
  refine blockInv_emptied h hf hbuf (hcur.trans hcur0) (hdata.trans hdata0) (by rw [hrx]; exact Nat.zero_le _)
    (.inl ⟨hend, hrx⟩) ?_
  rw [hhist]
  refine answersBounded_append h.answersBounded fun m bs e => ?_
  obtain ⟨rfl, ha⟩ := Event.recv.inj e
  exact length_le_of_nextRxAnswer ha

theorem recvAckBody_phase (s : State) : (recvAckBody s).phase = .open_ ∨ (recvAckBody s).phase = .releaseDue := by
  rcases nextRxAnswer_one s with ⟨b, e⟩ | e
  · exact .inr (recvAckBody_of_byte e).1
  · exact .inl (recvAckBody_of_noByte e).1

/-- A request that is let in and completes keeps the invariant. -/
theorem blockInv_completes {i : Instr} {s t : State} (h : BlockInv s) (ha : s.phase ∈ admittedPhases i)
    (hc : Completes i s t) : BlockInv t := by
  have hopen (hi : admittedPhases i = [.open_]) : s.phase = .open_ := by simpa [hi] using ha
  have hidle (hi : admittedPhases i = [.open_]) : s.rxOwed = 0 := h.nothingOwed (.inl (hopen hi))
  cases i with
  | configure d =>
    subst hc
    exact h.elsewhere _ _ _ _ _ _
  | start =>
    obtain ⟨hfit, rfl⟩ := hc
    exact blockInv_reply (blockInv_pushed h (hidle rfl) hfit (Nat.le_add_right _ _) (.inl (hopen rfl))) _
  | stop =>
    obtain ⟨hfit, rfl⟩ := hc
    exact blockInv_reply (blockInv_pushed h (hidle rfl) hfit (Nat.le_add_right _ _) (.inl (hopen rfl))) _
  | byteOut b =>
    obtain ⟨h0, hfit, rfl⟩ := hc
    exact blockInv_reply (blockInv_pushed h (hidle rfl) hfit (Nat.le_add_right _ _)
      (.inr ⟨rfl, h0, (byteOutSeq_length _ b).ge⟩)) _
  | ackRelease =>
    obtain ⟨hfit, rfl⟩ := hc
    have hp : s.phase = .releaseDue ∨ s.phase = .open_ := by simpa [admittedPhases] using ha
    exact blockInv_reply (blockInv_pushed h (h.nothingOwed (hp.elim (.inr ∘ .inr) .inl)) hfit (Nat.le_add_right _ _)
      (.inl rfl)) _
  | read n =>
    obtain ⟨d, -, -, hL, hfit, rfl⟩ := hc
    have hlen := rdSeq_length_ge s.lits _ hL
    exact blockInv_reply (blockInv_pushed h (hidle rfl) hfit (by omega) (.inl (hopen rfl))) _
  | flush => obtain ⟨-, rfl⟩ := hc; exact blockInv_flushBody h ha
  | recvAck =>
    subst hc
    exact blockInv_received h (.inl (by simpa [admittedPhases] using ha)) (transportFrame_of_completes (.inr (.inl rfl)) rfl)
      rfl rfl rfl rfl (recvAckBody_phase s) rfl
  | recv n =>
    have hf := transportFrame_of_completes (.inr (.inr ⟨n, rfl⟩)) hc
    obtain ⟨-, rfl⟩ := hc
    exact blockInv_received h (.inr (by simpa [admittedPhases] using ha)) hf rfl rfl rfl rfl (.inl rfl) rfl

theorem blockInv_exec {i : Instr} {s t : State} (h : BlockInv s) (he : exec i s = .next t) : BlockInv t := by
  rcases exec_cases he with ⟨c, -, rfl⟩ | ⟨c, -, -, -, rfl⟩ | ⟨-, ha, hc⟩
  · exact blockInv_reply h _
  · exact blockInv_raise h c _
  · exact blockInv_completes h ha hc

/-- All an illegal word can do: return the sticky fault, or take fault entry. -/
theorem performIllegal_cases (w : Word) (s : State) :
    (∃ c, s.fault = some c ∧ performIllegal w s = reply (.fault c) s)
    ∨ (s.fault = none ∧ performIllegal w s = raise .illegalRequest w s) := by
  cases hf : s.fault with
  | some c => exact .inl ⟨c, rfl, performIllegal_of_fault hf⟩
  | none => exact .inr ⟨rfl, performIllegal_of_no_fault hf⟩

theorem blockInv_performWord {w : Word} {s t : State} (h : BlockInv s) (hw : performWord w s = .next t) : BlockInv t := by
  rcases performWord_cases hw with ⟨i, -, he⟩ | ⟨-, rfl⟩
  · exact blockInv_exec h he
  · rcases performIllegal_cases w s with ⟨c, -, e⟩ | ⟨-, e⟩
    · rw [e]; exact blockInv_reply h _
    · rw [e]; exact blockInv_raise h _ _

theorem blockInv_withInputs {s : State} (h : BlockInv s) (rest : List Input) : BlockInv { s with inputs := rest } :=
  h.elsewhere _ _ _ _ _ _

/-- The reset input starts from the reset values, whatever the state (spec/70_reset_and_hazards.md R123). -/
theorem blockInv_resetSession (s : State) : BlockInv (resetSession s) :=
  (blockInv_resetOf s.lits).elsewhere _ _ _ _ _ _

/-- Settles O14: a step holds the state, resets it, or performs a word, which ends in a reply, in fault entry or in a request's
completion. -/
theorem stepKeepsInvariant : Obligations.StepKeepsInvariant := by
  intro s t h hstep
  rcases step_cases hstep with ⟨-, rfl⟩ | ⟨rest, -, rfl⟩ | ⟨w, rest, -, hw⟩
  · exact h
  · exact blockInv_resetSession _
  · exact blockInv_performWord (blockInv_withInputs h rest) hw

/-! ### No stop -/

/-- All that can stop the machine is a FLUSH with CUR above CAP (log 9). -/
theorem exec_next_or_stops (i : Instr) (s : State) :
    (∃ t, exec i s = .next t)
    ∨ (i = .flush ∧ Config.cap < s.cur ∧ exec i s = .fault (.addressOutsideBuffer Config.cap)) := by
  cases hf : s.fault with
  | some c => exact .inl ⟨_, exec_of_fault hf⟩
  | none =>
    cases ha : admission i s.phase with
    | some c => exact .inl ⟨_, exec_of_not_admitted hf ha⟩
    | none =>
      rcases exec_of_admitted i s hf ((admission_none_iff i s.phase).mp ha) with ⟨t, -, e⟩ | ⟨c, -, -, -, hr⟩ | hstop
      · exact .inl ⟨t, e⟩
      · exact .inl ⟨_, hr⟩
      · exact .inr hstop

/-- Settles O39: an admitted FLUSH past its check completes or stops; every other end is a next state. -/
theorem onlyFlushOutsideRangeStops : Obligations.OnlyFlushOutsideRangeStops := by
  refine ⟨fun s hf hp hover => ?stops, fun i s r h => ?onlyFlush, fun i s r h => ?notRefused⟩
  case stops =>
    have ha : s.phase ∈ admittedPhases .flush := by simpa [admittedPhases] using hp
    exact (perform_of_admitted hf ha).trans (if_neg (Nat.not_le.mpr hover))
  case onlyFlush =>
    rcases exec_next_or_stops i s with ⟨t, e⟩ | ⟨hi, hover, -⟩
    · cases h.symm.trans e
    · exact ⟨hi, hover⟩
  case notRefused =>
    rcases exec_next_or_stops i s with ⟨t, e⟩ | ⟨-, -, e⟩ <;> cases h.symm.trans e

/-- From a state with the invariant no request stops. -/
theorem performWord_next {s : State} (h : BlockInv s) (w : Word) : ∃ t, performWord w s = .next t := by
  cases hd : decode w with
  | none => exact ⟨_, performWord_of_illegal hd s⟩
  | some i =>
    rcases exec_next_or_stops i s with ⟨t, e⟩ | ⟨-, hover, -⟩
    · exact ⟨t, by simpa only [performWord, hd] using e⟩
    · exact absurd h.cursorInBuffer (Nat.not_le.mpr hover)

theorem step_of_idle {s : State} (h : s.inputs = []) : step s = .next s := by simp only [step, takeInput, h]

theorem step_next {s : State} (h : BlockInv s) : ∃ t, step s = .next t := by
  cases hin : s.inputs with
  | nil => exact ⟨s, step_of_idle hin⟩
  | cons x rest =>
    cases x with
    | reset => exact ⟨_, step_of_reset hin⟩
    | request w =>
      obtain ⟨t, ht⟩ := performWord_next (blockInv_withInputs h rest) w
      exact ⟨t, (step_of_request hin).trans ht⟩

/-- Settles O15, by induction on the number of steps: a state with the invariant takes a step, to one with the invariant. -/
theorem everyRunGoesOn : Obligations.EveryRunGoesOn := by
  intro k
  induction k with
  | zero => exact fun s h => ⟨s, rfl, h⟩
  | succ k ih =>
    intro s h
    obtain ⟨t, ht⟩ := step_next h
    obtain ⟨u, hrun, hu⟩ := ih t (stepKeepsInvariant s t h ht)
    exact ⟨u, (run_succ k s t ht).trans hrun, hu⟩

end Sys2Proof.Machine
end

section
/-! What a request leaves alone: LITS, the coming inputs, and each element of the state outside its writers' column
(spec/10_state.md R19, R31, R33, R36; spec/60_exceptions.md R109). -/

namespace Sys2Proof.Machine

/-! ### LITS and the coming inputs -/

/-- A request with no string is CONFIGURE or a transport request, if it completes. -/
theorem sort_of_completes {i : Instr} {s t : State} (hs : stringOf s.lits.val s.div i = none) (h : Completes i s t) :
    (∃ d, i = .configure d) ∨ i = .flush ∨ i = .recvAck ∨ ∃ n, i = .recv n := by
  cases i with
  | configure d => exact .inl ⟨d, rfl⟩
  | flush => exact .inr (.inl rfl)
  | recvAck => exact .inr (.inr (.inl rfl))
  | recv n => exact .inr (.inr (.inr ⟨n, rfl⟩))
  | read n =>
    obtain ⟨d, -, hd, -, -, -⟩ := h
    rw [hd] at hs; cases hs
  | start => cases hs
  | stop => cases hs
  | byteOut b => cases hs
  | ackRelease => cases hs

theorem completes_keeps {i : Instr} {s t : State} (h : Completes i s t) : t.inputs = s.inputs ∧ t.lits = s.lits := by
  cases hs : stringOf s.lits.val s.div i with
  | some bs =>
    have henv := (encoderFrame_of_completes hs h).environment
    exact ⟨henv.inputs, henv.lits⟩
  | none =>
    rcases sort_of_completes hs h with ⟨d, rfl⟩ | hi
    · subst h; exact ⟨rfl, rfl⟩
    · have hframe := transportFrame_of_completes hi h
      exact ⟨hframe.inputs, hframe.lits⟩

theorem exec_keeps {i : Instr} {s t : State} (h : exec i s = .next t) : t.inputs = s.inputs ∧ t.lits = s.lits := by
  rcases exec_cases h with ⟨c, -, rfl⟩ | ⟨c, -, -, -, rfl⟩ | ⟨-, -, hc⟩
  · exact ⟨rfl, rfl⟩
  · exact ⟨rfl, rfl⟩
  · exact completes_keeps hc

theorem performWord_keeps {w : Word} {s t : State} (h : performWord w s = .next t) :
    t.inputs = s.inputs ∧ t.lits = s.lits := by
  rcases performWord_cases h with ⟨i, -, he⟩ | ⟨-, rfl⟩
  · exact exec_keeps he
  · rcases performIllegal_cases w s with ⟨c, -, e⟩ | ⟨-, e⟩ <;> rw [e] <;> exact ⟨rfl, rfl⟩

/-- Settles O16: the step holds the state, resets it with its LITS, or performs a word, which keeps LITS. -/
theorem parameterStays : Obligations.ParameterStays := by
  intro s t h
  rcases step_cases h with ⟨-, rfl⟩ | ⟨rest, -, rfl⟩ | ⟨w, rest, -, hw⟩
  · rfl
  · rfl
  · exact (performWord_keeps hw).2

/-! ### The transport calls (R33) -/

/-- The transport call a request makes where it completes, with its answer. -/
def callOf (i : Instr) (s : State) : Option Event :=
  match i with
  | .configure _ => none
  | .start => none
  | .stop => none
  | .byteOut _ => none
  | .ackRelease => none
  | .read _ => none
  | .flush => some (.flush (unitOf s) (nextTxAnswer s))
  | .recvAck => some (.recv 1 (nextRxAnswer 1 s))
  | .recv n => some (.recv n.toNat (nextRxAnswer n.toNat s))

/-- HIST grows by the call a completed request makes. -/
theorem hist_of_completes {i : Instr} {s t : State} (h : Completes i s t) : t.hist = s.hist ++ (callOf i s).toList := by
  have hnone {i : Instr} {t : State} (h : t.hist = s.hist) (hi : callOf i s = none) :
      t.hist = s.hist ++ (callOf i s).toList := by rw [h, hi, Option.toList_none, List.append_nil]
  cases i with
  | configure d => subst h; exact hnone rfl rfl
  | start => obtain ⟨-, rfl⟩ := h; exact hnone rfl rfl
  | stop => obtain ⟨-, rfl⟩ := h; exact hnone rfl rfl
  | byteOut b => obtain ⟨-, -, rfl⟩ := h; exact hnone rfl rfl
  | ackRelease => obtain ⟨-, rfl⟩ := h; exact hnone rfl rfl
  | read n => obtain ⟨d, -, -, -, -, rfl⟩ := h; exact hnone rfl rfl
  | flush => obtain ⟨-, rfl⟩ := h; rfl
  | recvAck => subst h; rfl
  | recv n => obtain ⟨-, rfl⟩ := h; rfl

/-- A completed request that changes no HIST has made no call. -/
theorem callOf_eq_none_iff {i : Instr} {s t : State} (h : Completes i s t) : callOf i s = none ↔ t.hist = s.hist := by
  rw [hist_of_completes h, List.append_right_eq_self, Option.toList_eq_nil_iff]

/-- A completed request that makes no call takes no answer. -/
theorem answers_of_completes {i : Instr} {s t : State} (h : Completes i s t) (hcall : callOf i s = none) :
    t.txAnswers = s.txAnswers ∧ t.rxAnswers = s.rxAnswers := by
  cases i with
  | configure d => subst h; exact ⟨rfl, rfl⟩
  | start => obtain ⟨-, rfl⟩ := h; exact ⟨rfl, rfl⟩
  | stop => obtain ⟨-, rfl⟩ := h; exact ⟨rfl, rfl⟩
  | byteOut b => obtain ⟨-, -, rfl⟩ := h; exact ⟨rfl, rfl⟩
  | ackRelease => obtain ⟨-, rfl⟩ := h; exact ⟨rfl, rfl⟩
  | read n => obtain ⟨d, -, -, -, -, rfl⟩ := h; exact ⟨rfl, rfl⟩
  | flush => cases hcall
  | recvAck => cases hcall
  | recv n => cases hcall

theorem completedResult_of_noCall {i : Instr} {s : State} (hcall : callOf i s = none) : completedResult i s = .ok := by
  cases i with
  | flush => cases hcall
  | recvAck => cases hcall
  | recv n => cases hcall
  | _ => rfl

/-- A request that ends with FAULT set has changed neither HIST nor the coming answers. -/
theorem exec_noCall_or_completed {i : Instr} {s t : State} (h : exec i s = .next t) :
    (t.fault ≠ none ∧ t.hist = s.hist ∧ t.txAnswers = s.txAnswers ∧ t.rxAnswers = s.rxAnswers)
    ∨ (t.fault = none ∧ Completes i s t) := by
  rcases exec_cases h with ⟨c, hf, rfl⟩ | ⟨c, -, -, -, rfl⟩ | ⟨hf, -, hc⟩
  · exact .inl ⟨by simp [hf], rfl, rfl, rfl⟩
  · exact .inl ⟨by simp, rfl, rfl, rfl⟩
  · exact .inr ⟨(completes_fault hc).trans hf, hc⟩

/-- Settles O44: HIST grows by `callOf`, which is a call for the transport requests and none for the others. -/
theorem historyRecordsEveryCall : Obligations.HistoryRecordsEveryCall := by
  intro i s t h
  rcases exec_noCall_or_completed h with ⟨hf, hhist, hanswers⟩ | ⟨hf, hc⟩
  · exact ⟨fun hno => absurd hno hf, fun _ => hhist, fun _ => hanswers⟩
  refine ⟨fun _ => ?_, fun hset => absurd hf hset, fun hsame => answers_of_completes hc ((callOf_eq_none_iff hc).mpr hsame)⟩
  cases i with
  | flush => obtain ⟨-, rfl⟩ := hc; exact ⟨rfl, rfl, rfl⟩
  | recvAck => subst hc; exact ⟨rfl, rfl, rfl⟩
  | recv n => obtain ⟨-, rfl⟩ := hc; exact ⟨rfl, rfl, rfl⟩
  | _ => exact (callOf_eq_none_iff hc).mp rfl

/-! ### Results and faults (R67, R109) -/

theorem eq_fault_of_preconditionViolation {r : Result} (h : r.errorClass = .preconditionViolation) : ∃ c, r = .fault c := by
  unfold Result.errorClass at h
  split at h
  case h_8 c => exact ⟨c, rfl⟩
  all_goals cases h

theorem completes_faultReq {i : Instr} {s t : State} (h : Completes i s t) : t.faultReq = s.faultReq := by
  cases hs : stringOf s.lits.val s.div i with
  | some bs => exact (encoderFrame_of_completes hs h).faultReq
  | none =>
    rcases sort_of_completes hs h with ⟨d, rfl⟩ | hi
    · subst h; rfl
    · exact (transportFrame_of_completes hi h).faultReq

/-- Settles O21: fault entry makes no call and its result is a precondition violation; a completion leaves the fault
registers, its result is no FAULT, and without a call it is OK. -/
theorem errorResultsAreNotFaults : Obligations.ErrorResultsAreNotFaults := by
  refine ⟨fun _ => rfl, rfl, rfl, fun _ => rfl, rfl, fun _ => rfl, rfl, fun _ => rfl, fun i s t r hf h hr => ?_⟩
  rcases exec_cases h with ⟨c, hset, -⟩ | ⟨c, -, -, -, rfl⟩ | ⟨-, -, hc⟩
  · rw [hf] at hset; cases hset
  · cases hr
    exact ⟨fun hcall => absurd rfl hcall, fun hclass => by rcases hclass with e | e <;> cases e⟩
  · have hfault := (completes_fault hc).trans hf
    have hreq := completes_faultReq hc
    cases (result_of_completes hc).symm.trans hr
    refine ⟨fun _ => ⟨hfault, hreq, fun hclass => ?_⟩, fun hclass => ⟨hfault, hreq, fun hsame => ?_⟩⟩
    · obtain ⟨c, e⟩ := eq_fault_of_preconditionViolation hclass
      exact completedResult_ne_fault i s c e
    · rw [completedResult_of_noCall ((callOf_eq_none_iff hc).mpr hsame)] at hclass
      rcases hclass with e | e <;> cases e

/-! ### PHASE and the "written by" column (R19, R31) -/

theorem flushBody_phase_open {s : State} (hp : s.phase = .open_) :
    (flushBody s).phase = .open_ ∨ (flushBody s).phase = .dataInFlight ∧ 0 < s.dataOwed := by
  rcases Nat.eq_zero_or_pos s.dataOwed with hnone | hreads
  · exact .inl (flushBody_of_open_noReads hp hnone).1
  · exact .inr ⟨(flushBody_of_open_reads hp hreads).1, hreads⟩

/-- Settles O45: fault entry leaves PHASE; of the completions five write it, each from the phases it is let in. -/
theorem phaseTransitions : Obligations.PhaseTransitions := by
  intro i s t h hmoved
  rcases exec_cases h with ⟨c, -, rfl⟩ | ⟨c, -, -, -, rfl⟩ | ⟨-, ha, hc⟩
  · exact absurd rfl hmoved
  · exact absurd rfl hmoved
  cases i with
  | byteOut b =>
    obtain ⟨-, -, rfl⟩ := hc
    exact .inl ⟨by simpa [admittedPhases] using ha, rfl, b, rfl⟩
  | flush =>
    obtain ⟨-, rfl⟩ := hc
    have hp : s.phase = .open_ ∨ s.phase = .ackQueued := by simpa [admittedPhases] using ha
    rcases hp with hopen | hqueued
    · have hend := (flushBody_phase_open hopen).resolve_left fun e => hmoved (e.trans hopen.symm)
      exact .inr (.inr (.inl ⟨hopen, hend.1, rfl, hend.2⟩))
    · exact .inr (.inl ⟨hqueued, (flushBody_of_ackQueued hqueued).1, rfl⟩)
  | recvAck =>
    subst hc
    have hp : s.phase = .ackInFlight := by simpa [admittedPhases] using ha
    rcases recvAckBody_phase s with e | e
    · exact .inr (.inr (.inr (.inr (.inl ⟨hp, e, rfl⟩))))
    · exact .inr (.inr (.inr (.inl ⟨hp, e, rfl⟩)))
  | ackRelease =>
    obtain ⟨-, rfl⟩ := hc
    have hp : s.phase = .releaseDue ∨ s.phase = .open_ := by simpa [admittedPhases] using ha
    exact .inr (.inr (.inr (.inr (.inr (.inl ⟨hp.resolve_right fun e => hmoved e.symm, rfl, rfl⟩)))))
  | recv n =>
    obtain ⟨-, rfl⟩ := hc
    exact .inr (.inr (.inr (.inr (.inr (.inr ⟨by simpa [admittedPhases] using ha, rfl, n, rfl⟩)))))
  | configure d => subst hc; exact absurd rfl hmoved
  | start => obtain ⟨-, rfl⟩ := hc; exact absurd rfl hmoved
  | stop => obtain ⟨-, rfl⟩ := hc; exact absurd rfl hmoved
  | read n => obtain ⟨d, -, -, -, -, rfl⟩ := hc; exact absurd rfl hmoved

/-- Settles O46: the sticky fault writes the result port alone and fault entry the fault registers; a completion writes what
its rule says, element by element. -/
theorem writtenOnlyByItsWriters : Obligations.WrittenOnlyByItsWriters := by
  intro i s t h
  rcases exec_cases h with ⟨c, -, rfl⟩ | ⟨c, -, -, hr, rfl⟩ | ⟨-, -, hc⟩
  · simp
  · simp only [raise_div, raise_buf, raise_cur, raise_phase, raise_dataOwed, raise_rxOwed, raise_hist, ne_eq,
      not_true_eq_false, false_implies, true_and]
    exact ⟨fun _ => ⟨c, hr⟩, fun _ => ⟨c, hr⟩⟩
  · cases i with
    | configure d => subst hc; simp
    | start => obtain ⟨-, rfl⟩ := hc; simp
    | stop => obtain ⟨-, rfl⟩ := hc; simp
    | byteOut b => obtain ⟨-, -, rfl⟩ := hc; simp
    | ackRelease => obtain ⟨-, rfl⟩ := hc; simp
    | read n => obtain ⟨d, -, -, -, -, rfl⟩ := hc; simp
    | flush => obtain ⟨-, rfl⟩ := hc; simp [flushBody]
    | recvAck => subst hc; simp [recvAckBody]
    | recv n => obtain ⟨-, rfl⟩ := hc; simp

end Sys2Proof.Machine
end

section
/-! The bytes sent and buffered, over a request and over a run (spec/20_memory.md sections 2, 3, 6, 7;
spec/10_state.md R33). -/

namespace Sys2Proof.Machine

/-! ### Append (R45) -/

/-- Settles O24: an Append that succeeds left `pushed`. -/
theorem appendExtendsUnit : Obligations.AppendExtendsUnit := by
  intro s t bs h
  rcases append_cases s bs with ⟨-, e⟩ | ⟨-, e⟩
  · cases e.symm.trans h
    exact unitOf_pushed s _ bs rfl rfl rfl
  · cases e.symm.trans h

/-! ### The byte stream -/

/-- The bytes sent so far, then the bytes buffered (R41, R47). -/
def byteStream (s : State) : Bytes := sentBytes s.hist ++ unitOf s

theorem sentBytes_append (h k : List Event) : sentBytes (h ++ k) = sentBytes h ++ sentBytes k := by
  induction h with
  | nil => rfl
  | cons e h ih =>
    cases e with
    | flush unit a => rw [List.cons_append, sentBytes, sentBytes, ih, List.append_assoc]
    | recv n a => rw [List.cons_append, sentBytes, sentBytes, ih]

theorem byteStream_congr {s t : State} (hh : t.hist = s.hist) (hc : t.cur = s.cur) (hd : t.draws = s.draws)
    (hb : t.buf = s.buf) : byteStream t = byteStream s := by
  rw [byteStream, byteStream, hh, unitOf_congr s t hc hd hb]

/-- FLUSH moves the unit from the buffer to HIST. -/
theorem byteStream_flushBody (s : State) : byteStream (flushBody s) = byteStream s := by
  have hhist : (flushBody s).hist = s.hist ++ [.flush (unitOf s) (nextTxAnswer s)] := rfl
  rw [byteStream, unitOf_empty (flushBody s) rfl, List.append_nil, hhist, sentBytes_append, byteStream]
  simp only [sentBytes, List.append_nil]

/-- A receive sends nothing, and nothing is buffered while a response is awaited. -/
theorem byteStream_received {s t : State} {n : Nat} {a : RxAnswer} (h : BlockInv s)
    (hp : s.phase = .ackInFlight ∨ s.phase = .dataInFlight) (hcur : t.cur = s.cur) (hhist : t.hist = s.hist ++ [.recv n a]) :
    byteStream t = byteStream s := by
  obtain ⟨hcur0, -⟩ := empty_of_awaiting h hp
  rw [byteStream, byteStream, unitOf_empty s hcur0, unitOf_empty t (hcur.trans hcur0), hhist, sentBytes_append]
  simp only [sentBytes, List.append_nil]

/-- A completed request adds its string, if it has one, at the end of the byte stream. -/
theorem byteStream_of_completes {i : Instr} {s t : State} (h : BlockInv s) (ha : s.phase ∈ admittedPhases i)
    (hc : Completes i s t) : byteStream t = byteStream s ++ (stringOf s.lits.val s.div i).getD [] := by
  cases hs : stringOf s.lits.val s.div i with
  | some bs =>
    rw [byteStream, byteStream, (encoderFrame_of_completes hs hc).hist, unitOf_of_completes hs hc, ← List.append_assoc]; rfl
  | none =>
    rw [Option.getD_none, List.append_nil]
    rcases sort_of_completes hs hc with ⟨d, rfl⟩ | rfl | rfl | ⟨n, rfl⟩
    · subst hc; exact byteStream_congr rfl rfl rfl rfl
    · obtain ⟨-, rfl⟩ := hc; exact byteStream_flushBody s
    · subst hc; exact byteStream_received h (.inl (by simpa [admittedPhases] using ha)) rfl rfl
    · obtain ⟨-, rfl⟩ := hc
      exact byteStream_received h (.inr (by simpa [admittedPhases] using ha)) rfl rfl

/-- All a request can do to the byte stream: leave it and end with FAULT set, or complete and add its string. -/
theorem exec_byteStream_cases {i : Instr} {s t : State} (h : BlockInv s) (he : exec i s = .next t) :
    (t.fault ≠ none ∧ byteStream t = byteStream s ∧ t.hist = s.hist)
    ∨ (t.fault = none ∧ byteStream t = byteStream s ++ (stringOf s.lits.val s.div i).getD []
        ∧ t.hist = s.hist ++ (callOf i s).toList) := by
  rcases exec_cases he with ⟨c, hf, rfl⟩ | ⟨c, -, -, -, rfl⟩ | ⟨hf, ha, hc⟩
  · exact .inl ⟨by simp [hf], byteStream_congr rfl rfl rfl rfl, rfl⟩
  · exact .inl ⟨by simp, byteStream_congr rfl rfl rfl rfl, rfl⟩
  · exact .inr ⟨(completes_fault hc).trans hf, byteStream_of_completes h ha hc, hist_of_completes hc⟩

/-- Settles O25: fault entry writes neither HIST nor the buffer, and a completion adds its string. -/
theorem noByteIsLost : Obligations.NoByteIsLost := by
  intro i s t h he
  rcases exec_byteStream_cases h he with ⟨hf, hsame, -⟩ | ⟨hf, hgrown, -⟩
  · exact ⟨fun hno _ => absurd hno hf, fun _ => hsame⟩
  · exact ⟨fun _ _ => hgrown, fun hset => absurd hf hset⟩

/-! ### Runs without a reset -/

/-- The byte stream and HIST of t extend those of s. -/
def Extends (s t : State) : Prop := byteStream s <+: byteStream t ∧ s.hist <+: t.hist

theorem Extends.refl (s : State) : Extends s s := ⟨List.prefix_rfl, List.prefix_rfl⟩

theorem Extends.trans {s t u : State} (h : Extends s t) (k : Extends t u) : Extends s u :=
  ⟨h.1.trans k.1, h.2.trans k.2⟩

theorem extends_of_eq {s t : State} (hs : byteStream t = byteStream s) (hh : t.hist = s.hist) : Extends s t :=
  ⟨hs ▸ List.prefix_rfl, hh ▸ List.prefix_rfl⟩

theorem extends_performWord {w : Word} {s t : State} (h : BlockInv s) (hw : performWord w s = .next t) : Extends s t := by
  rcases performWord_cases hw with ⟨i, -, he⟩ | ⟨-, rfl⟩
  · rcases exec_byteStream_cases h he with ⟨-, hsame, hhist⟩ | ⟨-, hgrown, hhist⟩
    · exact extends_of_eq hsame hhist
    · exact ⟨hgrown ▸ List.prefix_append _ _, hhist ▸ List.prefix_append _ _⟩
  · rcases performIllegal_cases w s with ⟨c, -, e⟩ | ⟨-, e⟩ <;> rw [e] <;>
      exact extends_of_eq (byteStream_congr rfl rfl rfl rfl) rfl

/-- A step that takes no reset input extends the byte stream and HIST, and leaves the inputs after the one it takes. -/
theorem extends_step {s t : State} (h : BlockInv s) (hin : ∀ x ∈ s.inputs, x ≠ .reset) (hstep : step s = .next t) :
    Extends s t ∧ ∀ x ∈ t.inputs, x ≠ .reset := by
  rcases step_cases hstep with ⟨-, rfl⟩ | ⟨rest, e, -⟩ | ⟨w, rest, e, hw⟩
  · exact ⟨.refl _, hin⟩
  · exact absurd rfl (hin .reset (e ▸ List.mem_cons_self))
  · have htaken : Extends s { s with inputs := rest } := extends_of_eq (byteStream_congr rfl rfl rfl rfl) rfl
    refine ⟨htaken.trans (extends_performWord (blockInv_withInputs h rest) hw), fun x hx => hin x ?_⟩
    rw [(performWord_keeps hw).1] at hx
    exact e ▸ List.mem_cons_of_mem _ hx

/-- Settles O26, by induction on the number of steps: each keeps the invariant and extends the byte stream and HIST. -/
theorem byteStreamOnlyGrows : Obligations.ByteStreamOnlyGrows := by
  intro k
  induction k with
  | zero => intro s t _ _ hrun; cases hrun; exact Extends.refl s
  | succ k ih =>
    intro s u h hin hrun
    obtain ⟨t, hstep, hrest⟩ := run_succ_next hrun
    obtain ⟨hext, hin'⟩ := extends_step h hin hstep
    exact hext.trans (ih t u (stepKeepsInvariant s t h hstep) hin' hrest)

/-! ### A step, and the transport's answers -/

theorem performWord_of_decode {w : Word} {i : Instr} (h : decode w = some i) (s : State) : performWord w s = exec i s := by
  simp only [performWord, h]

/-- Settles O9: what a step does is told by the head of the inputs. -/
theorem stepRunsTheNextInput : Obligations.StepRunsTheNextInput := by
  refine ⟨fun s w rest i hin hd => ?_, fun s w rest hin hd => ?_, fun s rest => step_of_reset, fun s => step_of_idle,
    fun s w hw => ?_⟩
  · rw [step_of_request hin, performWord_of_decode hd]
  · rw [step_of_request hin, performWord_of_illegal hd]
  · rw [State.withFetchWord, Nat.mod_eq_of_lt hw]
    exact step_of_request rfl

/-- Settles O11: `resetSession` writes the session alone. -/
theorem resetKeepsTheEnvironment : Obligations.ResetKeepsTheEnvironment := by
  intro s t rest hin h
  cases (step_of_reset hin).symm.trans h
  exact ⟨rfl, rfl, rfl, rfl, rfl⟩

/-- Settles O43: an answer is cut to what was asked for, and a listed answer that needs no cut comes as it is. -/
theorem transportAnswersAreDraws : Obligations.TransportAnswersAreDraws := by
  refine ⟨fun n s bs => length_le_of_nextRxAnswer, fun n s bs h => ?_, fun n s => rfl, fun a s => rfl⟩
  exact congrArg RxAnswer.ok (List.take_of_length_le h)

end Sys2Proof.Machine
end

section
/-! What LitsWF says of the strings, and the responses the buffered bytes owe (spec/30_encoding.md R80 to R83). -/

namespace Sys2Proof.Machine

/-! ### LitsWF, point by point -/

/-- The points of LitsWF that the proofs below read. -/
theorem litsWF_points (l : AdmittedLits) :
    lits2 l.val = true ∧ lits4 l.val = true ∧ releaseSilent l.val = true ∧ readOwesOne l.val = true := by
  have h := l.wf
  simp only [litsWF, lits7, Bool.and_eq_true] at h
  obtain ⟨⟨⟨⟨⟨⟨h2, -⟩, h4⟩, -⟩, -⟩, -⟩, hrelease, hread⟩ := h
  exact ⟨h2, h4, hrelease, hread⟩

theorem lineStatesOnly_iff (bs : Bytes) :
    lineStatesOnly bs = true ↔ ∃ cs, cmdsOf bs = some cs ∧ cs.all isSet = true := by
  unfold lineStatesOnly
  cases cmdsOf bs <;> simp

theorem builtWithRepeats_iff (k : Nat) (bs : Bytes) : builtWithRepeats k bs = true ↔
    ∃ cs, cmdsOf bs = some cs ∧ ∃ n < cs.length + 1, repeatsThenSettles k (cs.take n) (cs.drop n) = true := by
  unfold builtWithRepeats
  cases cmdsOf bs <;> simp

theorem releaseSilent_iff (l : Lits) :
    releaseSilent l = true ↔ ∃ cs, cmdsOf l.ackReleaseSeq = some cs ∧ responses cs = 0 := by
  unfold releaseSilent
  cases cmdsOf l.ackReleaseSeq <;> simp

/-- START's and STOP's strings are line states, each built with four repetitions (R80 point 2). -/
theorem startStop_points (l : AdmittedLits) {bs : Bytes} (hbs : bs = l.val.startSeq ∨ bs = l.val.stopSeq) :
    lineStatesOnly bs = true ∧ builtWithRepeats 4 bs = true := by
  obtain ⟨h2, -, -, -⟩ := litsWF_points l
  simp only [lits2, Bool.and_eq_true] at h2
  obtain ⟨⟨⟨hlstart, hlstop⟩, hbstart⟩, hbstop⟩ := h2
  rcases hbs with rfl | rfl
  · exact ⟨hlstart, hbstart⟩
  · exact ⟨hlstop, hbstop⟩

/-- BYTE_OUT's head is a command for one byte, and its tail a line state, a one-bit input and silent commands (R80
point 4). -/
theorem byteOut_points (l : AdmittedLits) : l.val.boHead = bytesOutHead 1 ∧
    ∃ v d rest, cmdsOf l.val.boTail = some (.set v d :: .bitsIn 0x00#8 :: rest) ∧ responses rest = 0 := by
  obtain ⟨-, h4, -, -⟩ := litsWF_points l
  simp only [lits4, Bool.and_eq_true, beq_iff_eq] at h4
  obtain ⟨hhead, htail⟩ := h4
  refine ⟨hhead, ?_⟩
  split at htail
  case h_1 v d len rest hcmds =>
    simp only [Bool.and_eq_true, beq_iff_eq] at htail
    obtain ⟨rfl, hsilent⟩ := htail
    exact ⟨v, d, rest, hcmds, hsilent⟩
  case h_2 => cases htail

/-! ### The responses of the strings (R80 point 7) -/

theorem responseCount_startStop (l : AdmittedLits) {bs : Bytes} (hbs : bs = l.val.startSeq ∨ bs = l.val.stopSeq) :
    responseCount bs = some 0 := by
  obtain ⟨cs, hcs, hsets⟩ := (lineStatesOnly_iff bs).mp (startStop_points l hbs).1
  rw [responseCount_of_cmdsOf hcs, responses_of_sets hsets]

theorem responseCount_ackRelease (l : AdmittedLits) : responseCount l.val.ackReleaseSeq = some 0 := by
  obtain ⟨-, -, hrelease, -⟩ := litsWF_points l
  obtain ⟨cs, hcs, hsilent⟩ := (releaseSilent_iff l.val).mp hrelease
  rw [responseCount_of_cmdsOf hcs, hsilent]

/-- The byte is the head's data; the response is the tail's one-bit input. -/
theorem responseCount_byteOut (l : AdmittedLits) (b : Byte) : responseCount (byteOutSeq l.val b) = some 1 := by
  obtain ⟨hhead, v, d, rest, htail, hsilent⟩ := byteOut_points l
  have hcmd : nextCmd (bytesOutHead 1 ++ [b]) = some (.bytesOut [b], []) := by
    simp [nextCmd, bytesOutHead, lengthField]
  have hout : responseCount (bytesOutHead 1 ++ [b]) = some 0 := by rw [responseCount_of_cmd hcmd]; rfl
  have hin : responseCount l.val.boTail = some 1 := by
    rw [responseCount_of_cmdsOf htail]
    simp only [responses, List.map_cons, List.sum_cons, cmdResponses] at hsilent ⊢
    rw [hsilent]
  rw [byteOutSeq, hhead]
  exact responseCount_append hout hin

/-- A read sequence that fits the buffer has a loop count up to CAP, since no loop group is empty. -/
theorem loops_le_cap (l : AdmittedLits) {L : Nat} (h : (rdSeq l.val L).length ≤ Config.cap) : L ≤ Config.cap := by
  obtain ⟨-, -, h0, -, -⟩ := admittedLits_lengths l
  have hgroup := Nat.le_mul_of_pos_right L h0
  rw [rdSeq_length, Nat.mul_add, Nat.mul_add] at h
  omega

theorem responseCount_read (l : AdmittedLits) {L : Nat} (hL : 1 ≤ L) (hfit : (rdSeq l.val L).length ≤ Config.cap) :
    responseCount (rdSeq l.val L) = some 1 := by
  obtain ⟨-, -, -, hread⟩ := litsWF_points l
  have hcap := loops_le_cap l hfit
  obtain ⟨k, rfl⟩ := Nat.exists_eq_add_of_le' hL
  rw [rdSeq_length] at hfit
  simp only [readOwesOne, List.all_eq_true, List.mem_range, Bool.or_eq_true, decide_eq_true_eq, beq_iff_eq] at hread
  exact (hread k hcap).resolve_left (Nat.not_lt.mpr hfit)

/-- Settles O51, string by string. -/
theorem litsResponseCounts : Obligations.LitsResponseCounts := fun l =>
  ⟨responseCount_byteOut l, fun _ => responseCount_read l, responseCount_startStop l (.inl rfl),
    responseCount_startStop l (.inr rfl), responseCount_ackRelease l⟩

/-- Settles O53: the check cuts the commands into a body and a way to settle, and each cut is checked. -/
theorem litsRepeatsAreExact : Obligations.LitsRepeatsAreExact := by
  intro l bs hbs
  obtain ⟨hlines, hbuilt⟩ := startStop_points l hbs
  obtain ⟨cs, hcs, hsets⟩ := (lineStatesOnly_iff bs).mp hlines
  obtain ⟨cs', hcs', n, -, hcut⟩ := (builtWithRepeats_iff 4 bs).mp hbuilt
  cases hcs.symm.trans hcs'
  exact ⟨cs.take n, cs.drop n, by rw [hcs, List.take_append_drop], by rwa [List.take_append_drop, ← List.all_eq_true],
    repeatsThenSettles_prop (by decide) hcut⟩

/-- Settles O48: LitsWF is the proof REF carries, and the rest is read off REF's bytes. -/
theorem referencePassesLitsWF : Obligations.ReferencePassesLitsWF :=
  ⟨reference.wf, by decide, by decide, fun _ => byteOutSeq_length _ _, by decide, by decide, by decide, by decide, by decide,
    by decide⟩

/-! ### The responses of the buffered bytes -/

/-- The responses that DATA_OWED and PHASE count for the buffered bytes (spec/10_state.md R24, R31). -/
def queuedResponses (s : State) : Nat := s.dataOwed + if s.phase = .ackQueued then 1 else 0

theorem bufferOwes_iff (s : State) : BufferOwes s ↔ responseCount (unitOf s) = some (queuedResponses s) := Iff.rfl

/-- The buffered bytes and what is counted for them agree wherever CUR, the cells, the draws, DATA_OWED and PHASE do. -/
theorem BufferOwes.congr {s t : State} (h : BufferOwes s) (hc : t.cur = s.cur) (hd : t.draws = s.draws) (hb : t.buf = s.buf)
    (hn : t.dataOwed = s.dataOwed) (hp : t.phase = s.phase) : BufferOwes t := by
  rw [BufferOwes, unitOf_congr s t hc hd hb, hn, hp]; exact h

/-- An empty buffer owes nothing. -/
theorem bufferOwes_of_empty {t : State} (hc : t.cur = 0) (hn : t.dataOwed = 0) (hp : t.phase ≠ .ackQueued) :
    BufferOwes t := by
  rw [BufferOwes, unitOf_empty t hc, hn, if_neg hp]; rfl

/-- An appended string's responses are the ones that DATA_OWED and PHASE count in addition. -/
theorem bufferOwes_appended {i : Instr} {s t : State} {bs : Bytes} {m : Nat} (h : BufferOwes s)
    (hs : stringOf s.lits.val s.div i = some bs) (hc : Completes i s t) (hbs : responseCount bs = some m)
    (hcount : queuedResponses t = queuedResponses s + m) : BufferOwes t := by
  rw [bufferOwes_iff, unitOf_of_completes hs hc, hcount]
  exact responseCount_append h hbs

theorem bufferOwes_completes {i : Instr} {s t : State} (hinv : BlockInv s) (h : BufferOwes s)
    (ha : s.phase ∈ admittedPhases i) (hc : Completes i s t) : BufferOwes t := by
  have hopen (hi : admittedPhases i = [.open_]) : s.phase = .open_ := by simpa [hi] using ha
  cases i with
  | configure d => subst hc; exact h.congr rfl rfl rfl rfl rfl
  | start =>
    exact bufferOwes_appended h rfl hc (responseCount_startStop s.lits (.inl rfl)) (by obtain ⟨-, rfl⟩ := hc; rfl)
  | stop =>
    exact bufferOwes_appended h rfl hc (responseCount_startStop s.lits (.inr rfl)) (by obtain ⟨-, rfl⟩ := hc; rfl)
  | byteOut b =>
    refine bufferOwes_appended h rfl hc (responseCount_byteOut s.lits b) ?_
    obtain ⟨-, -, rfl⟩ := hc
    simp [queuedResponses, hopen rfl]
  | ackRelease =>
    refine bufferOwes_appended h rfl hc (responseCount_ackRelease s.lits) ?_
    have hp : s.phase = .releaseDue ∨ s.phase = .open_ := by simpa [admittedPhases] using ha
    obtain ⟨-, rfl⟩ := hc
    rcases hp with hp | hp <;> simp [queuedResponses, hp]
  | read n =>
    obtain ⟨d, -, hd, hL, hfit, -⟩ := id hc
    refine bufferOwes_appended h (by rw [stringOf, hd]; rfl) hc
      (responseCount_read s.lits (Nat.pos_of_ne_zero hL) (by omega)) ?_
    obtain ⟨d', -, -, -, -, rfl⟩ := hc
    simp [queuedResponses, hopen rfl]
  | flush =>
    obtain ⟨-, rfl⟩ := hc
    obtain hp | hp : s.phase = .open_ ∨ s.phase = .ackQueued := by simpa [admittedPhases] using ha
    · have hnone : (flushBody s).dataOwed = 0 := by simp [flushBody, dataOwedAfterFlush, hp]
      exact bufferOwes_of_empty rfl hnone (by rcases flushBody_phase_open hp with e | ⟨e, -⟩ <;> simp [e])
    · obtain ⟨hp', -, hd⟩ := flushBody_of_ackQueued hp
      exact bufferOwes_of_empty rfl (hd.trans (dataOwed_eq_zero_of_ackQueued hinv hp)) (by simp [hp'])
  | recvAck =>
    subst hc
    obtain ⟨hcur, hd⟩ := empty_of_awaiting hinv (.inl (by simpa [admittedPhases] using ha))
    exact bufferOwes_of_empty hcur hd (by rcases recvAckBody_phase s with e | e <;> simp [e])
  | recv n =>
    obtain ⟨-, rfl⟩ := hc
    obtain ⟨hcur, hd⟩ := empty_of_awaiting hinv (.inr (by simpa [admittedPhases] using ha))
    exact bufferOwes_of_empty hcur hd Phase.noConfusion

theorem bufferOwes_performWord {w : Word} {s t : State} (hinv : BlockInv s) (h : BufferOwes s)
    (hw : performWord w s = .next t) : BufferOwes t := by
  rcases performWord_cases hw with ⟨i, -, he⟩ | ⟨-, rfl⟩
  · rcases exec_cases he with ⟨c, -, rfl⟩ | ⟨c, -, -, -, rfl⟩ | ⟨-, ha, hc⟩
    · exact h.congr rfl rfl rfl rfl rfl
    · exact h.congr rfl rfl rfl rfl rfl
    · exact bufferOwes_completes hinv h ha hc
  · rcases performIllegal_cases w s with ⟨c, -, e⟩ | ⟨-, e⟩ <;> rw [e] <;> exact h.congr rfl rfl rfl rfl rfl

theorem bufferOwes_step {s t : State} (hinv : BlockInv s) (h : BufferOwes s) (hstep : step s = .next t) : BufferOwes t := by
  rcases step_cases hstep with ⟨-, rfl⟩ | ⟨rest, -, rfl⟩ | ⟨w, rest, -, hw⟩
  · exact h
  · exact bufferOwes_of_empty rfl rfl Phase.noConfusion
  · exact bufferOwes_performWord (blockInv_withInputs hinv rest) (h.congr rfl rfl rfl rfl rfl) hw

/-- The RX_OWED a FLUSH leaves is what DATA_OWED and PHASE counted for its unit (spec/41_session_transport.md R105). -/
theorem flushBody_rxOwed {s : State} (h : BlockInv s) (ha : s.phase ∈ admittedPhases .flush) :
    (flushBody s).rxOwed = queuedResponses s := by
  obtain hp | hp : s.phase = .open_ ∨ s.phase = .ackQueued := by simpa [admittedPhases] using ha
  · have hcount : queuedResponses s = s.dataOwed := by simp [queuedResponses, hp]
    rcases Nat.eq_zero_or_pos s.dataOwed with hnone | hreads
    · rw [hcount, hnone, (flushBody_of_open_noReads hp hnone).2.1, h.nothingOwed (.inl hp)]
    · rw [hcount, (flushBody_of_open_reads hp hreads).2.1]
  · rw [(flushBody_of_ackQueued hp).2.1, queuedResponses, dataOwed_eq_zero_of_ackQueued h hp, if_pos hp]

/-- Settles O52: a string's responses are counted by DATA_OWED and PHASE as it is appended, and FLUSH moves the count to
RX_OWED. -/
theorem owedMatchesTheUnit : Obligations.OwedMatchesTheUnit := by
  refine ⟨fun l => bufferOwes_of_empty rfl rfl Phase.noConfusion, fun s t => bufferOwes_step, fun s t hinv h he hf => ?_⟩
  rcases exec_cases he with ⟨c, hset, rfl⟩ | ⟨c, -, -, -, rfl⟩ | ⟨-, ha, hc⟩
  · rw [reply_fault, hset] at hf; cases hf
  · cases hf
  · obtain ⟨-, rfl⟩ := hc
    rw [flushBody_rxOwed hinv ha]
    exact h

end Sys2Proof.Machine
end

section
/-! The loop count, and READ under it (spec/40_bus_primitives.md R88 to R90, R100). -/

namespace Sys2Proof.Machine

/-- The exact quotient of R88. -/
theorem loopQuotient (d : Nat) :
    (Config.loopScale : ℚ) * (Config.loopRefKhz : ℚ) / clockKhz d = (1 + (d : ℚ)) / 15 := by
  have hpos : (1 + (d : ℚ)) ≠ 0 := by positivity
  simp only [clockKhz, Config.loopScale, Config.loopRefKhz, Config.baseKhz]
  push_cast
  field_simp
  norm_num

/-- Settles O33: rounding (1 + d) / 15 half up is the floor of (2 d + 17) / 30; a tie would make an even number odd. -/
theorem loopCountClosedForm : Obligations.LoopCountClosedForm := by
  refine ⟨fun d => ?rounded, loopQuotient, fun d k => by omega⟩
  have hsum : (1 + (d.toNat : ℚ)) / 15 + 1 / 2 = ((2 * d.toNat + 17 : ℕ) : ℤ) / (30 : ℕ) := by push_cast; ring
  calc loopCountFormula d.toNat
    _ = ⌊(1 + (d.toNat : ℚ)) / 15 + 1 / 2⌋ := by rw [loopCountFormula, loopQuotient]; rfl
    _ = ((2 * d.toNat + 17 : ℕ) : ℤ) / (30 : ℕ) := by rw [hsum, Rat.floor_intCast_div_natCast]
    _ = (loopCount d : ℤ) := rfl

theorem loopCount_mono {d e : Half} (h : d.toNat ≤ e.toNat) : loopCount d ≤ loopCount e :=
  Nat.div_le_div_right (by omega)

theorem loopCount_max : loopCount 65535#16 = 4369 := by decide

theorem loopCount_le (d : Half) : loopCount d ≤ 4369 :=
  loopCount_max ▸ loopCount_mono (Nat.le_of_lt_succ d.isLt)

theorem read_raises_loopCountZero {d : Half} {s : State} (hf : s.fault = none) (hp : s.phase = .open_)
    (hd : s.div = some d) (h6 : d.toNat ≤ 6) : Raises (.read 1#16) s .loopCountZero :=
  raises_of_body rfl hf (by rw [hp]; decide) (readBody_of_loopCountZero hd ((loopCount_eq_zero_iff d).mpr h6))

/-- Settles O34: the closed form is monotone, so 0 up to 6 and the maximum at the last d. -/
theorem loopCountRange : Obligations.LoopCountRange := by
  refine ⟨fun d => (loopCount_eq_zero_iff d).mpr, fun d h7 => Nat.one_le_iff_ne_zero.mpr fun h0 => ?_, loopCount_max,
    loopCount_le, fun _ _ => loopCount_mono, fun _ _ => read_raises_loopCountZero⟩
  exact absurd ((loopCount_eq_zero_iff d).mp h0) (by omega)

theorem loopCount_le_113_iff (d : Half) : loopCount d ≤ 113 ↔ d.toNat ≤ 1701 := by
  simp only [loopCount]; omega

/-- Settles O36: the sequence has 3 + 9 L bytes, and 113 loops are the most that fit. -/
theorem readCapacityUnderRef : Obligations.ReadCapacityUnderRef := by
  refine ⟨fun d => rdSeq_length_reference _, fun d => ⟨by simp only [Config.cap]; omega, loopCount_le_113_iff d⟩,
    fun d s hl hf hp hd => ?_⟩
  have ha : s.phase ∈ admittedPhases (.read 1#16) := by rw [hp]; decide
  have hzero := loopCount_eq_zero_iff d
  refine ⟨fun hlarge => ?overflows, fun h7 _ hfit => ?fits⟩
  case overflows =>
    have h113 := loopCount_le_113_iff d
    exact raises_of_body rfl hf ha (readBody_of_overflow hd (by omega)
      (by rw [hl, rdSeq_length_reference]; simp only [Config.cap]; omega))
  case fits =>
    exact ⟨_, exec_of_completes hf ha (read_completes_reference hl hd (by omega) (by omega)), rfl⟩

end Sys2Proof.Machine
end

section
/-! The caller's SEND and WRITE_REG (spec/30_encoding.md R69, R70; spec/95_test_vectors.md L1.5, P3). -/

namespace Sys2Proof.Machine

/-! ### SEND, to its handshake -/

/-- SEND b has room for its unit and starts from OPEN with no fault and no READ buffered. -/
structure SendReady (b : Byte) (s : State) : Prop where
  fault : s.fault = none
  phase : s.phase = .open_
  dataOwed : s.dataOwed = 0
  room : s.cur + (byteOutSeq s.lits.val b).length ≤ Config.cap

/-- The state after SEND's BYTE_OUT. -/
def byteQueued (b : Byte) (s : State) : State :=
  reply .ok { pushed s (byteOutSeq s.lits.val b) with phase := .ackQueued }

/-- The state after SEND's FLUSH, in which the handshake is awaited. -/
def handshakeAwaited (b : Byte) (s : State) : State := flushBody (byteQueued b s)

/-- The answer to SEND's receive. -/
def handshakeOf (b : Byte) (s : State) : RxAnswer := nextRxAnswer 1 (handshakeAwaited b s)

theorem exec_byteOut_of_ready {b : Byte} {s : State} (h : SendReady b s) : exec (.byteOut b) s = .next (byteQueued b s) :=
  exec_of_completes h.fault (by rw [h.phase]; exact List.mem_singleton_self _) ⟨h.dataOwed, h.room, rfl⟩

theorem exec_flush_of_ready {b : Byte} {s : State} (h : SendReady b s) :
    exec .flush (byteQueued b s) = .next (handshakeAwaited b s) :=
  exec_of_completes h.fault (by decide : Phase.ackQueued ∈ admittedPhases .flush) ⟨h.room, rfl⟩

theorem handshakeAwaited_phase (b : Byte) (s : State) : (handshakeAwaited b s).phase = .ackInFlight :=
  (flushBody_of_ackQueued rfl).1

theorem exec_recvAck_of_ready {b : Byte} {s : State} (h : SendReady b s) :
    exec .recvAck (handshakeAwaited b s) = .next (recvAckBody (handshakeAwaited b s)) :=
  exec_of_completes h.fault (by rw [handshakeAwaited_phase]; decide) rfl

/-- SEND up to its handshake, and then the release if it came. -/
theorem sendByte_of_ready {b : Byte} {s : State} (h : SendReady b s) :
    sendByte b s = releaseIfDelivered (recvAckBody (handshakeAwaited b s)) := by
  simp only [sendByte, andThen, exec_byteOut_of_ready h, exec_flush_of_ready h, exec_recvAck_of_ready h]

/-- HIST then holds the unit, which the byte's string ends, and the receive. -/
theorem handshakeReceived_hist (b : Byte) (s : State) : (recvAckBody (handshakeAwaited b s)).hist =
    s.hist ++ [.flush (unitOf s ++ byteOutSeq s.lits.val b) (nextTxAnswer s), .recv 1 (handshakeOf b s)] := by
  have hunit : unitOf (byteQueued b s) = unitOf s ++ byteOutSeq s.lits.val b := unitOf_pushed s _ _ rfl rfl rfl
  calc (recvAckBody (handshakeAwaited b s)).hist
    _ = s.hist ++ [.flush (unitOf (byteQueued b s)) (nextTxAnswer s)] ++ [.recv 1 (handshakeOf b s)] := rfl
    _ = _ := by rw [hunit, List.append_assoc]; rfl

/-! ### SEND, whole -/

/-- The state after SEND's ACK_RELEASE. -/
def releaseQueued (s : State) : State := reply .ok { pushed s s.lits.val.ackReleaseSeq with phase := .open_ }

/-- What SEND b leaves after the answer a to its receive: OPEN, nothing owed, the unit sent and the receive made, and the
release buffered if a handshake byte came. -/
structure Sent (b : Byte) (s t : State) (a : RxAnswer) : Prop where
  fault : t.fault = none
  phase : t.phase = .open_
  dataOwed : t.dataOwed = 0
  rxOwed : t.rxOwed = 0
  lits : t.lits = s.lits
  rxAnswers : t.rxAnswers = s.rxAnswers.tail
  hist : t.hist = s.hist ++ [.flush (unitOf s ++ byteOutSeq s.lits.val b) (nextTxAnswer s), .recv 1 a]
  unit : unitOf t = if handshakeSampled a then s.lits.val.ackReleaseSeq else []

/-- SEND sends its unit, receives once, and buffers the release exactly when a handshake byte came (R69). -/
theorem sendByte_sent {b : Byte} {s : State} (h : SendReady b s) (hrelease : s.lits.val.ackReleaseSeq.length ≤ Config.cap) :
    ∃ t, sendByte b s = .next (t, some (ackResult (handshakeOf b s))) ∧ Sent b s t (handshakeOf b s) := by
  have hdata : (handshakeAwaited b s).dataOwed = 0 := (flushBody_of_ackQueued rfl).2.2.trans h.dataOwed
  have hhist := handshakeReceived_hist b s
  rcases nextRxAnswer_one (handshakeAwaited b s) with ⟨g, hg⟩ | hnone
  · obtain ⟨hdue, hresult⟩ := recvAckBody_of_byte hg
    have hc : Completes .ackRelease (recvAckBody (handshakeAwaited b s))
        (releaseQueued (recvAckBody (handshakeAwaited b s))) := ⟨(Nat.zero_add _).trans_le hrelease, rfl⟩
    have hexec := exec_of_completes (s := recvAckBody (handshakeAwaited b s)) h.fault (by rw [hdue]; decide) hc
    refine ⟨releaseQueued (recvAckBody (handshakeAwaited b s)), ?_, h.fault, rfl, hdata, rfl, rfl, rfl, hhist, ?_⟩
    · rw [sendByte_of_ready h, releaseIfDelivered, hresult]
      simp only [andThen, hexec, handshakeOf, hg, ackResult_of_byte]
    · rw [unitOf_of_completes rfl hc, unitOf_empty _ rfl, handshakeOf, hg]; rfl
  · obtain ⟨hopen, hresult⟩ := recvAckBody_of_noByte hnone
    have hack : ackResult (handshakeOf b s) = .ack false false := by rcases hnone with e | e <;> rw [handshakeOf, e] <;> rfl
    have hnot : handshakeSampled (handshakeOf b s) = false := by rcases hnone with e | e <;> rw [handshakeOf, e] <;> rfl
    refine ⟨recvAckBody (handshakeAwaited b s), ?_, h.fault, hopen, hdata, rfl, rfl, rfl, hhist, ?_⟩
    · rw [sendByte_of_ready h, releaseIfDelivered, hresult, hack]
    · rw [unitOf_empty _ rfl, hnot]; rfl

theorem ackResult_of_not_sampled {a : RxAnswer} (h : handshakeSampled a = false) : ackResult a = .ack false false := by
  match a with
  | .ok [_] => cases h
  | .ok [] => rfl
  | .ok (_ :: _ :: _) => rfl
  | .err => rfl

/-- Without a handshake byte SEND leaves nothing buffered. -/
theorem Sent.cur_eq_zero {b : Byte} {s t : State} {a : RxAnswer} (h : Sent b s t a) (ha : handshakeSampled a = false) :
    t.cur = 0 := by
  rw [← unitOf_length, h.unit, ha]; rfl

/-- Settles O49: the three requests before the handshake complete, and the release after it as far as there is one. -/
theorem sendByteExpansion : Obligations.SendByteExpansion := by
  intro b s hf hp hd hroom hrelease
  obtain ⟨t, hsend, hsent⟩ := sendByte_sent ⟨hf, hp, hd, hroom⟩ hrelease
  refine ⟨t, _, _, _, hsend, hsent.fault, hsent.phase, hsent.dataOwed, hsent.rxOwed, rfl, hsent.hist, fun hcame => ?_,
    fun hnot => ⟨ackResult_of_not_sampled hnot, hsent.cur_eq_zero hnot⟩⟩
  rw [hsent.unit, if_pos hcame]

/-! ### SEND inside WRITE_REG -/

/-- SEND's handshake is the next listed answer, where that is one R53 allows. -/
theorem handshakeOf_listed {b : Byte} {s : State} {a : RxAnswer} {rest : List RxAnswer} (h : s.rxAnswers = a :: rest)
    (ha : allowedAnswer 1 a = a) : handshakeOf b s = a := by
  have hlist : (handshakeAwaited b s).rxAnswers = a :: rest := h
  rw [handshakeOf, nextRxAnswer, hlist]
  exact ha

/-- A SEND whose handshake comes is delivered. -/
theorem sendByte_of_byte {b h : Byte} {s : State} {rest : List RxAnswer} (hs : SendReady b s)
    (hrelease : s.lits.val.ackReleaseSeq.length ≤ Config.cap) (hin : s.rxAnswers = .ok [h] :: rest) :
    ∃ t k, sendByte b s = .next (t, some (.ack true k)) ∧ Sent b s t (.ok [h]) := by
  obtain ⟨t, hsend, hsent⟩ := sendByte_sent hs hrelease
  rw [handshakeOf_listed hin rfl] at hsend hsent
  exact ⟨t, _, hsend, hsent⟩

/-- A SEND whose handshake does not come leaves nothing pending. -/
theorem sendByte_of_noByte {b : Byte} {s : State} {e : RxAnswer} {rest : List RxAnswer} (hs : SendReady b s)
    (hrelease : s.lits.val.ackReleaseSeq.length ≤ Config.cap) (hin : s.rxAnswers = e :: rest) (he : e = .ok [] ∨ e = .err) :
    ∃ t, sendByte b s = .next (t, some (.ack false false)) ∧ NothingPending t ∧ Sent b s t e := by
  obtain ⟨t, hsend, hsent⟩ := sendByte_sent hs hrelease
  have hallowed : allowedAnswer 1 e = e := by rcases he with rfl | rfl <;> rfl
  have hnot : handshakeSampled e = false := by rcases he with rfl | rfl <;> rfl
  rw [handshakeOf_listed hin hallowed] at hsend hsent
  rw [ackResult_of_not_sampled hnot] at hsend
  exact ⟨t, hsend, ⟨hsent.fault, hsent.phase, hsent.cur_eq_zero hnot, hsent.dataOwed, hsent.rxOwed⟩, hsent⟩

/-- After a SEND whose handshake came, the next one has the release before it. -/
theorem Sent.ready {b c h : Byte} {s t : State} (hsent : Sent b s t (.ok [h]))
    (hroom : s.lits.val.ackReleaseSeq.length + (byteOutSeq s.lits.val c).length ≤ Config.cap) : SendReady c t := by
  refine ⟨hsent.fault, hsent.phase, hsent.dataOwed, ?_⟩
  rw [← unitOf_length, hsent.unit, hsent.lits]
  exact hroom

/-- The next SEND's unit is that release and its own string. -/
theorem Sent.next_hist {b c h : Byte} {s t u : State} {a : RxAnswer} (hsent : Sent b s t (.ok [h])) (hnext : Sent c t u a) :
    u.hist = t.hist
      ++ [.flush (s.lits.val.ackReleaseSeq ++ byteOutSeq s.lits.val c) (nextTxAnswer t), .recv 1 a] := by
  have hunit : unitOf t = s.lits.val.ackReleaseSeq := hsent.unit
  rw [hnext.hist, hunit, hsent.lits]

/-- The state after a START that completes. -/
def started (s : State) : State := reply .ok (pushed s s.lits.val.startSeq)

theorem exec_start_of_fits {s : State} (hf : s.fault = none) (hp : s.phase = .open_)
    (hfit : s.cur + s.lits.val.startSeq.length ≤ Config.cap) : exec .start s = .next (started s) :=
  exec_of_completes hf (by rw [hp]; decide) ⟨hfit, rfl⟩

/-- After START, the SEND's unit is what was buffered, the start sequence and the byte's string. -/
theorem Sent.started_hist {b : Byte} {s t : State} {a : RxAnswer} (hsent : Sent b (started s) t a) :
    t.hist = s.hist ++ [.flush (unitOf s ++ s.lits.val.startSeq ++ byteOutSeq s.lits.val b) (nextTxAnswer (started s)),
      .recv 1 a] := by
  have hunit : unitOf (started s) = unitOf s ++ s.lits.val.startSeq := unitOf_pushed s _ _ rfl rfl rfl
  rw [hsent.hist, hunit]; rfl

/-- Settles O50: each SEND whose handshake comes hands the next one its release; the one whose handshake does not come ends
the sequence, and HIST holds what the SENDs up to it recorded. -/
theorem writeRegEndsUndelivered : Obligations.WriteRegEndsUndelivered := by
  intro dev reg val s e rest hf hp hd hroom hroomReg hroomVal he
  have hrelease : s.lits.val.ackReleaseSeq.length ≤ Config.cap := by omega
  have hstart : exec .start s = .next (started s) := exec_start_of_fits hf hp (by omega)
  have hready : SendReady (addressByte dev false) (started s) := ⟨hf, hp, hd, (Nat.add_assoc _ _ _).trans_le hroom⟩
  refine ⟨fun hin => ?address, fun h hin => ?register, fun h g hin => ?value⟩
  case address =>
    obtain ⟨t, hsend, hpending, hsent⟩ := sendByte_of_noByte hready hrelease hin he
    exact ⟨t, _, by simp [writeReg, hstart, andThen, unlessUndelivered, hsend], hpending, hsent.started_hist⟩
  case register =>
    obtain ⟨t, k, hsend, hsent⟩ := sendByte_of_byte hready hrelease hin
    have hin' : t.rxAnswers = e :: rest := hsent.rxAnswers.trans (congrArg List.tail hin)
    obtain ⟨u, hsend', hpending, hsent'⟩ := sendByte_of_noByte (hsent.ready hroomReg) (hsent.lits ▸ hrelease) hin' he
    refine ⟨u, nextTxAnswer (started s), nextTxAnswer t,
      by simp [writeReg, hstart, andThen, unlessUndelivered, hsend, hsend'], hpending, ?_⟩
    rw [hsent.next_hist hsent', hsent.started_hist, List.append_assoc]; rfl
  case value =>
    obtain ⟨t, k, hsend, hsent⟩ := sendByte_of_byte hready hrelease hin
    have hin' : t.rxAnswers = .ok [g] :: e :: rest := hsent.rxAnswers.trans (congrArg List.tail hin)
    obtain ⟨u, k', hsend', hsent'⟩ := sendByte_of_byte (hsent.ready hroomReg) (hsent.lits ▸ hrelease) hin'
    have hin'' : u.rxAnswers = e :: rest := hsent'.rxAnswers.trans (congrArg List.tail hin')
    have hlits : t.lits = s.lits := hsent.lits
    obtain ⟨v, hsend'', hpending, hsent''⟩ := sendByte_of_noByte (hsent'.ready (hlits ▸ hroomVal))
      (hsent'.lits ▸ hlits ▸ hrelease) hin'' he
    refine ⟨v, nextTxAnswer (started s), nextTxAnswer t, nextTxAnswer u,
      by simp [writeReg, hstart, andThen, unlessUndelivered, hsend, hsend', hsend''], hpending, ?_⟩
    rw [hsent'.next_hist hsent'', hsent.next_hist hsent', hsent.started_hist, List.append_assoc, List.append_assoc, hlits]
    rfl

end Sys2Proof.Machine
end
